-- ==== Sys2Proof/Word.lean ====
section
/-! DEFINITION. The words of the block: the 32-bit bus and command word, the 16-bit entry of a table or block buffer,
the 8-bit channel (spec/00_scope.md R7, R8). -/

namespace Sys2Proof

/-- A bus data word, a register, a command word (R8, R80). -/
abbrev Word := BitVec 32

/-- An entry of a quantization table or of a block buffer (R7: QT_W and COEF_W). -/
abbrev Entry := BitVec 16

/-- A colour channel, or a byte lane of the bus (R30, R54). -/
abbrev Byte := BitVec 8

end Sys2Proof
end

