-- ==== Sys2Proof/Syntax.lean ====
section
/-! DEFINITION. The commands (spec/30_encoding.md R83): one constructor per row of spec/opcode_table.json. A field holds
exactly the values its bits can (R82): a block buffer is a `Fin 8`, a table slot or an output buffer a `Fin 4`, H, V, HS
and VS a `Fin 2` (log 18). -/

namespace Sys2Proof

/-- A legal command word, decoded. -/
inductive Instr where
  /-- No operation (R180). -/
  | nop
  /-- Dequantize one block (R101). -/
  | deq (rd rs : Fin 8) (qt : Fin 4)
  /-- Inverse DCT of one block (R133). -/
  | idct (rd rs : Fin 8)
  /-- Colour-convert one luma sub-block (R153). -/
  | cconv (ry rcb rcr : Fin 8) (ro : Fin 4) (h v hs vs : Fin 2)
  /-- Convert one luma block of a single-component image (R155). -/
  | gray (ry : Fin 8) (ro : Fin 4)
  /-- Clear one block buffer (R181). -/
  | clr (rd : Fin 8)
  /-- Dequantize and inverse DCT of one block (R135). -/
  | dqi (rd rs : Fin 8) (qt : Fin 4)
deriving DecidableEq, Repr

end Sys2Proof
end

