-- ==== Sys2Proof/WellFormed.lean ====
section
/-! DEFINITION. Which commands and which assembler lines are well formed (spec/30_encoding.md R86 to R88). An `Instr` is
encodable by its type; the one relation between its fields is CCONV's sampling rule. Assembler lines hold the numbers as
written, and their checks are those of an assembler (R87). -/

namespace Sys2Proof

/-- The sampling factor an HS or VS bit gives (R82): hsf = 1 + HS, vsf = 1 + VS. -/
def samplingFactor (bit : Fin 2) : Nat := 1 + bit.val

/-- CCONV's offsets lie below their factors (R86; not BAD_SAMPLING). -/
def offsetsLegal (h v hs vs : Fin 2) : Bool :=
  decide (h.val < samplingFactor hs) && decide (v.val < samplingFactor vs)

/-- A command an assembler writes (R87): all but a CCONV that only a raw word can give. A command that is not well formed
still decodes and runs; it records error 3 (R86). -/
def Instr.wellFormed : Instr → Bool
  | .nop => true
  | .deq _ _ _ => true
  | .idct _ _ => true
  | .cconv _ _ _ _ h v hs vs => offsetsLegal h v hs vs
  | .gray _ _ => true
  | .clr _ => true
  | .dqi _ _ _ => true

/-- One line of assembler text (R87, R88), its operands as the numbers written. -/
inductive AsmLine where
  | nop
  | deq (d s t : Nat)
  | idct (d s : Nat)
  | cconv (o y cb cr h v hsf vsf : Nat)
  | gray (o y : Nat)
  | clr (d : Nat)
  | dqi (d s t : Nat)
  /-- Pseudo-command, 1x1 luma (R88). -/
  | cconv444 (o y cb cr : Nat)
  /-- Pseudo-command, 2x1 luma (R88). -/
  | cconv422 (o y cb cr h : Nat)
  /-- Pseudo-command, 1x2 luma (R88). -/
  | cconv440 (o y cb cr v : Nat)
  /-- Pseudo-command, 2x2 luma (R88). -/
  | cconv420 (o y cb cr h v : Nat)
  /-- A raw word, `.word 0x...` (R87). -/
  | word (w : Word)
deriving DecidableEq, Repr

/-- A block buffer is written b0 to b7 (R87). -/
def isBuffer (n : Nat) : Bool := decide (n < 8)

/-- A table slot is written q0 to q3 (R87). -/
def isSlot (n : Nat) : Bool := decide (n < 4)

/-- An output buffer is written o0 to o3 (R87). -/
def isOutput (n : Nat) : Bool := decide (n < 4)

/-- A written factor is 1 or 2 (R87: "An assembler refuses HSF or VSF outside {1, 2}"). -/
def isFactor (n : Nat) : Bool := n == 1 || n == 2

/-- The expansion of a pseudo-command (R88); any other line is itself. -/
def AsmLine.expand : AsmLine → AsmLine
  | .cconv444 o y cb cr => .cconv o y cb cr 0 0 1 1
  | .cconv422 o y cb cr h => .cconv o y cb cr h 0 2 1
  | .cconv440 o y cb cr v => .cconv o y cb cr 0 v 1 2
  | .cconv420 o y cb cr h v => .cconv o y cb cr h v 2 2
  | l => l

/-- What an assembler accepts (R87), pseudo-commands through their expansions (R88). -/
def AsmLine.wellFormed (l : AsmLine) : Bool :=
  match l.expand with
  | .nop => true
  | .deq d s t => isBuffer d && isBuffer s && isSlot t
  | .idct d s => isBuffer d && isBuffer s
  | .cconv o y cb cr h v hsf vsf =>
    isOutput o && isBuffer y && isBuffer cb && isBuffer cr && isFactor hsf && isFactor vsf
      && decide (h < hsf) && decide (v < vsf)
  | .gray o y => isOutput o && isBuffer y
  | .clr d => isBuffer d
  | .dqi d s t => isBuffer d && isBuffer s && isSlot t
  | .word _ => true
  | .cconv444 _ _ _ _ => false
  | .cconv422 _ _ _ _ _ => false
  | .cconv440 _ _ _ _ _ => false
  | .cconv420 _ _ _ _ _ _ => false

end Sys2Proof
end

