-- ==== Sys2Proof/Decode.lean ====
section
/-! DEFINITION. From a command word to a command (spec/30_encoding.md R80 to R85), total and rejecting by name, and the
encoder back. The opcode table R84 is data, so it reads like the spec. -/

namespace Sys2Proof

/-- Why a word is an illegal command (R85). -/
inductive Reject where
  /-- OPC is 0x7 to 0xF. -/
  | reservedOpcode
  /-- OPC is 0x0 to 0x6 and a required-zero bit is 1. -/
  | requiredZeroBit
deriving DecidableEq, Repr

/-- A row of the table of required-zero bits (R84). -/
structure Row where
  mask : Word
  pattern : Word
deriving DecidableEq, Repr

/-- A word is the row's command exactly when (word & mask) = match (R84). -/
def Row.accepts (r : Row) (w : Word) : Bool := w &&& r.mask == r.pattern

def rowNop : Row := ⟨0xFFFFFFFF, 0x00000000⟩
def rowDeq : Row := ⟨0xF00FFFFF, 0x10000000⟩
def rowIdct : Row := ⟨0xF03FFFFF, 0x20000000⟩
def rowCconv : Row := ⟨0xF0001FFF, 0x30000000⟩
def rowGray : Row := ⟨0xF1F9FFFF, 0x40000000⟩
def rowClr : Row := ⟨0xF1FFFFFF, 0x50000000⟩
def rowDqi : Row := ⟨0xF00FFFFF, 0x60000000⟩

/-- The table of R84 in its order. -/
def opcodeTable : List Row := [rowNop, rowDeq, rowIdct, rowCconv, rowGray, rowClr, rowDqi]

/-- The row of a command. -/
def Instr.row : Instr → Row
  | .nop => rowNop
  | .deq _ _ _ => rowDeq
  | .idct _ _ => rowIdct
  | .cconv _ _ _ _ _ _ _ _ => rowCconv
  | .gray _ _ => rowGray
  | .clr _ => rowClr
  | .dqi _ _ _ => rowDqi

/-- OPC = cmd[31:28] (R80). -/
def fieldOpc (w : Word) : Nat := (w.extractLsb 31 28).toNat
/-- RD = RY = cmd[27:25] (R82). -/
def fieldRd (w : Word) : Fin 8 := (w.extractLsb 27 25).toFin
/-- RS = RCB = cmd[24:22] (R82). -/
def fieldRs (w : Word) : Fin 8 := (w.extractLsb 24 22).toFin
/-- RCR = cmd[21:19] (R82). -/
def fieldRcr (w : Word) : Fin 8 := (w.extractLsb 21 19).toFin
/-- QT = cmd[21:20] (R82). -/
def fieldQt (w : Word) : Fin 4 := (w.extractLsb 21 20).toFin
/-- RO = cmd[18:17] (R82). -/
def fieldRo (w : Word) : Fin 4 := (w.extractLsb 18 17).toFin
/-- H = cmd[16] (R82). -/
def fieldH (w : Word) : Fin 2 := (w.extractLsb 16 16).toFin
/-- V = cmd[15] (R82). -/
def fieldV (w : Word) : Fin 2 := (w.extractLsb 15 15).toFin
/-- HS = cmd[14] (R82). -/
def fieldHs (w : Word) : Fin 2 := (w.extractLsb 14 14).toFin
/-- VS = cmd[13] (R82). -/
def fieldVs (w : Word) : Fin 2 := (w.extractLsb 13 13).toFin

/-- A word whose OPC is a row's: the command, where the row's required-zero bits are 0 (R84, R85). -/
def acceptRow (r : Row) (w : Word) (i : Instr) : Except Reject Instr :=
  if r.accepts w then .ok i else .error .requiredZeroBit

/-- The command of a word (R83 to R85). -/
def decode (w : Word) : Except Reject Instr :=
  match fieldOpc w with
  | 0 => acceptRow rowNop w .nop
  | 1 => acceptRow rowDeq w (.deq (fieldRd w) (fieldRs w) (fieldQt w))
  | 2 => acceptRow rowIdct w (.idct (fieldRd w) (fieldRs w))
  | 3 => acceptRow rowCconv w (.cconv (fieldRd w) (fieldRs w) (fieldRcr w) (fieldRo w)
      (fieldH w) (fieldV w) (fieldHs w) (fieldVs w))
  | 4 => acceptRow rowGray w (.gray (fieldRd w) (fieldRo w))
  | 5 => acceptRow rowClr w (.clr (fieldRd w))
  | 6 => acceptRow rowDqi w (.dqi (fieldRd w) (fieldRs w) (fieldQt w))
  | _ => .error .reservedOpcode

/-- The word of `nbits` bits numbered as spec/opcode_table.json numbers them. A command is one 32-bit word (R80), so bits
above `nbits` are 0 and nothing follows bit 31 (log 19). -/
def tableWord (nbits w : Nat) : Word := BitVec.ofNat 32 (w % 2 ^ nbits)

/-- The decoder on a table word. -/
def decodeTableWord (nbits w : Nat) : Option Instr := (decode (tableWord nbits w)).toOption

/-- A field's bits with their lowest at bit `lo`. -/
def place {n : Nat} (v : BitVec n) (lo : Nat) : Word := v.setWidth 32 <<< lo

/-- The bits of a block buffer's number, of a slot's or output buffer's, of a one-bit field (R82). -/
def bits3 (n : Fin 8) : BitVec 3 := BitVec.ofFin n
def bits2 (n : Fin 4) : BitVec 2 := BitVec.ofFin n
def bits1 (n : Fin 2) : BitVec 1 := BitVec.ofFin n

/-- Format B (R81). -/
def formatB (opc : BitVec 4) (rd rs : Fin 8) (qt : Fin 4) : Word :=
  place opc 28 ||| place (bits3 rd) 25 ||| place (bits3 rs) 22 ||| place (bits2 qt) 20

/-- Format C (R81). -/
def formatC (opc : BitVec 4) (ry rcb rcr : Fin 8) (ro : Fin 4) (h v hs vs : Fin 2) : Word :=
  place opc 28 ||| place (bits3 ry) 25 ||| place (bits3 rcb) 22 ||| place (bits3 rcr) 19 ||| place (bits2 ro) 17
    ||| place (bits1 h) 16 ||| place (bits1 v) 15 ||| place (bits1 hs) 14 ||| place (bits1 vs) 13

/-- The word of a command (R81, R83): a field its row does not use is 0 (R84). -/
def encode : Instr → Word
  | .nop => 0
  | .deq rd rs qt => formatB 1 rd rs qt
  | .idct rd rs => formatB 2 rd rs 0
  | .cconv ry rcb rcr ro h v hs vs => formatC 3 ry rcb rcr ro h v hs vs
  | .gray ry ro => formatC 4 ry 0 0 ro 0 0 0 0
  | .clr rd => formatB 5 rd 0 0
  | .dqi rd rs qt => formatB 6 rd rs qt

end Sys2Proof
end

