-- ==== Sys2Proof/Config.lean ====
section
/-! DEFINITION. What is fixed for the block (spec/00_scope.md R7) and its free values: constants without a body, about
which nothing can be proved, so that a claim holds whatever they are. -/

namespace Sys2Proof.Config

/-- N_QT: quantization table slots (R7). -/
def nQt : Nat := 4

/-- N_ELEM: entries of a block and of a table (R7). -/
def nElem : Nat := 64

/-- N_BLK: block buffers (R7). -/
def nBlk : Nat := 8

/-- N_OUT: output buffers (R7). -/
def nOut : Nat := 4

/-- CB: fraction bits of every multiplier constant (R7). -/
def cb : Nat := 14

/-- F: fraction bits of the IDCT's intermediate values (R7). -/
def f : Nat := 8

/-- The size of the aperture in bytes, 8 KiB (R50). -/
def apertureSize : Nat := 0x2000

/-- BASE, OPEN: the byte address of the aperture on the host bus (R7, D35). It has no value here, so claims hold for
every BASE. DESIGN CHOICE, log 10: a bus address is a natural number. -/
opaque base : Nat

/-- Free value: what a read of a 16-bit entry never written finds, by the number of the draw and of the read in it
(R28, R29, D30; log 4, log 5, log 7). -/
opaque freeEntry : Nat → Nat → Entry

/-- Free value: a channel of a pixel never written, by the number of the draw and of the channel
(R30, D30; log 4, log 6, log 7). -/
opaque freeByte : Nat → Nat → Byte

/-- Free value: the bus word of a window read while BUSY = 1 (R60, U3; log 7). -/
opaque freeWord : Nat → Word

end Sys2Proof.Config
end

