-- ==== Sys2Proof/Machine/Arith.lean ====
section
/-! DEFINITION. The arithmetic helpers of the rules (spec/00_scope.md R9, R10), on integers that do not wrap. -/

namespace Sys2Proof.Machine

/-- `a >> n` is floor(a / 2^n), for negative a too (R9). -/
def asr (a : Int) (n : Nat) : Int := a / 2 ^ n

/-- sat16 (R10). -/
def sat16 (v : Int) : Int := min 32767 (max (-32768) v)

/-- ovf16 (R10). -/
def ovf16 (v : Int) : Bool := decide (v > 32767) || decide (v < -32768)

/-- clamp8 (R10). -/
def clamp8 (v : Int) : Int := min 255 (max 0 v)

/-- mulK: a product with a Q14 constant, rounded to nearest with ties toward plus infinity (R10). -/
def mulK (a k : Int) : Int := asr (a * k + 2 ^ (Config.cb - 1)) Config.cb

end Sys2Proof.Machine
end

