-- ==== Sys2Proof/Machine/State.lean ====
section
/-! DEFINITION. The state of the block (spec/10_state.md R20), as plain data, what it is after hardware reset (R33), and
the reasons the machine can stop. -/

namespace Sys2Proof.Machine

/-- A pixel of an output buffer (R30). -/
structure Pixel where
  r : Byte
  g : Byte
  b : Byte
deriving DecidableEq, Repr

/-- A RAM of the block: the entries written since hardware reset, each with its key, in one canonical form (`Memory.wf`).
An unlisted key is an entry never written; it has no value, and a read of it is a free value (R28 to R30, D30; log 4,
log 22). The key of entry i of buffer or slot b is 64 * b + i. -/
abbrev Memory (α : Type) := List (Nat × α)

/-- Keys strictly rising, at least `lo` and below `hi`. -/
def Memory.wfFrom {α : Type} (lo hi : Nat) : Memory α → Bool
  | [] => true
  | (a, _) :: m => decide (lo ≤ a) && decide (a < hi) && Memory.wfFrom (a + 1) hi m

/-- The canonical form of a RAM of `size` entries. An unlisted key has no value, so no listed entry can equal it. -/
def Memory.wf {α : Type} (size : Nat) (m : Memory α) : Bool := Memory.wfFrom 0 size m

/-- One turn of an agent (R62, R200, R240). -/
inductive Event where
  /-- The host reads `bytes` bytes at a bus address. -/
  | read (addr bytes : Nat)
  /-- The host writes `bytes` bytes at a bus address; `data` is the word on the data bus (log 11). -/
  | write (addr bytes : Nat) (data : Word)
  /-- The engine is given its turn. -/
  | engine
  /-- The platform asserts hardware reset. -/
  | hardReset
deriving DecidableEq, Repr

/-- The error codes the block records (R205). -/
inductive ErrorCode where
  | illegalCmd
  | qtUndefined
  | badSampling
  | cmdWhileBusy
  | accessWhileBusy
  | badAccess
deriving DecidableEq, Repr

/-- The state of the block (R20), and last the model's own three fields. -/
structure State where
  /-- CTRL.IRQEN (R22). -/
  irqen : Bool
  /-- STATUS.BUSY (R23). -/
  busy : Bool
  /-- STATUS.DONE (R23). -/
  done : Bool
  /-- STATUS.ERR (R23). -/
  err : Bool
  /-- STATUS.SAT (R23). -/
  sat : Bool
  /-- ERRCODE.CODE (R24). -/
  errcode : BitVec 4
  /-- QTDEF.DEF: bit t is QTDEF[t] (R26). -/
  qtdef : BitVec 4
  /-- PEND, the hidden latch of the accepted command (R27). -/
  pend : Word
  /-- QT[0..3][0..63] (R28). -/
  qt : Memory Entry
  /-- BLK[0..7][0..63] (R29). -/
  blk : Memory Entry
  /-- OUT[0..3][0..63] (R30). -/
  out : Memory Pixel
  /-- The model's own: the turns the agents take next (log 1). -/
  inputs : List Event
  /-- The model's own: the word the last host read returned (log 12). -/
  rdata : Word
  /-- The model's own: the number of the next draw of free values (log 7). -/
  draws : Nat
deriving DecidableEq, Repr

/-- After hardware reset (R33). `pend`, `inputs`, `rdata` and `draws` are DESIGN CHOICES (log 8, log 1, log 12, log 7). -/
def State.reset : State where
  irqen := false
  busy := false
  done := false
  err := false
  sat := false
  errcode := 0
  qtdef := 0
  pend := 0
  qt := []
  blk := []
  out := []
  inputs := []
  rdata := 0
  draws := 0

/-- Why the machine stops with a fault. -/
inductive Fault where
  /-- Raised by `turn` on a host access at an address outside the aperture: "An access outside the aperture does not
  reach the block and no rule of this spec applies to it" (R50). Safe: the machine stops where a platform goes on (log 9). -/
  | outsideAperture
deriving DecidableEq, Repr

/-- Why the machine gives an instruction no meaning. -/
inductive Refusal where
  /-- Raised by an arm of `exec` whose instruction has no meaning yet; no arm does. Safe. -/
  | notModelled (mnemonic : String)
deriving DecidableEq, Repr

end Sys2Proof.Machine
end

