-- ==== Sys2Proof/Machine/Ops.lean ====
section
/-! DEFINITION. The shared operations: reading and writing a RAM, recording an error and returning from one, accepting
and completing a command, the two resets. -/

namespace Sys2Proof.Machine

/-- The entry at a key, or none where it was never written since hardware reset (D30). -/
def Memory.read {α : Type} : Memory α → Nat → Option α
  | [], _ => none
  | (a, v) :: m, k => if a = k then some v else Memory.read m k

/-- Write an entry, keeping the canonical form. -/
def Memory.write {α : Type} : Memory α → Nat → α → Memory α
  | [], k, v => [(k, v)]
  | (a, w) :: m, k, v =>
    if k < a then (k, v) :: (a, w) :: m
    else if k = a then (k, v) :: m
    else (a, w) :: Memory.write m k v

/-- Write consecutive entries from a key on. -/
def Memory.writeFrom {α : Type} (m : Memory α) (k : Nat) : List α → Memory α
  | [] => m
  | v :: vs => Memory.writeFrom (Memory.write m k v) (k + 1) vs

/-- The key of entry `i` of buffer or slot `b`: natural order, 64 entries each (R12, R28 to R30). -/
def entryKey (b i : Nat) : Nat := Config.nElem * b + i

/-- The sixty-four entries a function gives, in natural order. Irreducible, so that no proof unfolds a block store into
sixty-four writes by accident; the kernel still evaluates it. -/
@[irreducible] def entries {α : Type} (g : Nat → α) : List α := (List.range Config.nElem).map g

/-- BLK[b][i] <- g i for i in 0..63 (R11). -/
def storeBlk (b : Fin 8) (g : Nat → Entry) (s : State) : State :=
  { s with blk := Memory.writeFrom s.blk (entryKey b 0) (entries g) }

/-- OUT[o][i] <- g i for i in 0..63 (R11). -/
def storeOut (o : Fin 4) (g : Nat → Pixel) (s : State) : State :=
  { s with out := Memory.writeFrom s.out (entryKey o 0) (entries g) }

/-- BLK[b][i] <- v, one entry (R56). -/
def writeBlkEntry (b i : Nat) (v : Entry) (s : State) : State :=
  { s with blk := Memory.write s.blk (entryKey b i) v }

/-- QT[t][i] <- v, one entry (R55). -/
def writeQtEntry (t i : Nat) (v : Entry) (s : State) : State :=
  { s with qt := Memory.write s.qt (entryKey t i) v }

/-- The numbers of the error codes (R205). -/
def ErrorCode.code : ErrorCode → BitVec 4
  | .illegalCmd => 1
  | .qtUndefined => 2
  | .badSampling => 3
  | .cmdWhileBusy => 4
  | .accessWhileBusy => 5
  | .badAccess => 6

/-- RecordError(c) (R204): this block's form of taking an exception. ERRCODE keeps the first code (R203). -/
def recordError (c : ErrorCode) (s : State) : State :=
  { s with errcode := if s.err then s.errcode else c.code, err := true }

/-- The return from an error (R212): ERR and ERRCODE become 0 and nothing else changes. -/
def clearError (s : State) : State :=
  { s with err := false, errcode := 0 }

/-- An accepted CMD write (R201). -/
def acceptCommand (w : Word) (s : State) : State :=
  { s with pend := w, busy := true, done := false }

/-- The engine step takes the pending command: BUSY becomes 0 (R202). -/
def takeCommand (s : State) : State :=
  { s with busy := false }

/-- A command that ends without an error sets DONE (R202). -/
def complete (s : State) : State :=
  { s with done := true }

/-- The free values of draw `s.draws` are used up: the next draw has the next number (log 7). -/
def nextDraw (s : State) : State :=
  { s with draws := s.draws + 1 }

/-- A read returns a word to the host (log 12). -/
def returnWord (w : Word) (s : State) : State :=
  { s with rdata := w }

/-- Soft reset (R242, R33): the registers as after hardware reset, QT, BLK and OUT unchanged. "PEND dropped" is the value
of reset (log 8). -/
def softReset (s : State) : State :=
  { s with irqen := false, busy := false, done := false, err := false, sat := false, errcode := 0, qtdef := 0,
           pend := 0 }

/-- Hardware reset (R241): the state of R33. The model's own fields go on: what the world does next, what the host last
read, and the number of the next draw (log 13). -/
def hardwareReset (s : State) : State :=
  { State.reset with inputs := s.inputs, rdata := s.rdata, draws := s.draws }

end Sys2Proof.Machine
end

