-- ==== Sys2Proof/Machine/Flags.lean ====
section
/-! DEFINITION. The flags and registers as words: SAT's computation, STATUS and its write-1-to-clear bits, IRQ, and the
words CTRL, ERRCODE, QTDEF and ID read as (spec/10_state.md R21 to R26, R31). -/

namespace Sys2Proof.Machine

/-- `sat` over a block's sixty-four values (R100, R122). -/
def satAny (v : Nat → Int) : Bool := (List.range Config.nElem).any fun i => ovf16 (v i)

/-- `if sat: STATUS.SAT <- 1`; SAT is sticky (R23, R101). -/
def raiseSat (sat : Bool) (s : State) : State :=
  { s with sat := s.sat || sat }

/-- A flag as bit `n` of a register. -/
def flagBit (b : Bool) (n : Nat) : Word := (BitVec.ofBool b).setWidth 32 <<< n

/-- The ID register (R21). -/
def idWord : Word := 0x1DC70007

/-- What CTRL reads as: SRST reads 0 (R22). -/
def ctrlWord (s : State) : Word := flagBit s.irqen 1

/-- What STATUS reads as (R23). -/
def statusWord (s : State) : Word := flagBit s.busy 0 ||| flagBit s.done 1 ||| flagBit s.err 2 ||| flagBit s.sat 3

/-- What ERRCODE reads as (R24). -/
def errcodeWord (s : State) : Word := s.errcode.setWidth 32

/-- What QTDEF reads as (R26). -/
def qtdefWord (s : State) : Word := s.qtdef.setWidth 32

/-- The interrupt output (R31). -/
def irq (s : State) : Bool := s.irqen && (s.done || s.err)

/-- A write of STATUS (R23): write-1-to-clear, BUSY unaffected; clearing ERR is the return from an error (R212). -/
def writeStatus (v : Word) (s : State) : State :=
  let t := { s with done := s.done && !v.getLsbD 1, sat := s.sat && !v.getLsbD 3 }
  if v.getLsbD 2 then clearError t else t

/-- A write of CTRL (R22): a soft reset, or IRQEN. -/
def writeCtrl (v : Word) (s : State) : State :=
  if v.getLsbD 0 then softReset s else { s with irqen := v.getLsbD 1 }

end Sys2Proof.Machine
end

