-- ==== Sys2Proof/Machine/Operands.lean ====
section
/-! DEFINITION. The operand forms of the commands: entries of BLK, QT and OUT as the rules read them (spec/00_scope.md R9,
R11), the slot check, the sampling factors and the chroma index. A command's read of an entry never written since hardware
reset finds any value (spec/92_eei_decisions.md D30), and everything the command computes is computed from what it read:
each read has a number in the command, and finds the free value of that number in the command's draw (log 4, log 5). -/

namespace Sys2Proof.Machine

/-- BLK[b][i] (R29), none where never written. -/
def blkEntry (s : State) (b i : Nat) : Option Entry := Memory.read s.blk (entryKey b i)

/-- QT[t][i] (R28), none where never written. -/
def qtEntry (s : State) (t i : Nat) : Option Entry := Memory.read s.qt (entryKey t i)

/-- OUT[o][i] (R30), none where never written. -/
def outPixel (s : State) (o i : Nat) : Option Pixel := Memory.read s.out (entryKey o i)

/-- The number of the read a command makes for position `i` of its operand `operand` (0, 1 or 2): each read of a command
has its own, so that each is a draw of its own (log 5). -/
def readNumber (operand i : Nat) : Nat := Config.nElem * operand + i

/-- sext_16(BLK[b][i]) (R9, R29), as read `k` of a command finds it. -/
def readCoef (s : State) (b : Fin 8) (i k : Nat) : Int := ((blkEntry s b i).getD (Config.freeEntry s.draws k)).toInt

/-- zext_16(QT[t][i]) (R9, R28), as read `k` of a command finds it. -/
def readQuant (s : State) (t : Fin 4) (i k : Nat) : Int := (((qtEntry s t i).getD (Config.freeEntry s.draws k)).toNat : Int)

/-- QTDEF[t] = 1 (R26). -/
def slotDefined (s : State) (t : Fin 4) : Bool := s.qtdef.getLsbD t

/-- The chroma index of luma pixel (x, y) of sub-block (H, V) (R154). -/
def chromaIndex (h v hs vs : Fin 2) (x y : Nat) : Nat :=
  8 * (y / samplingFactor vs + 4 * v.val) + (x / samplingFactor hs + 4 * h.val)

/-- A 16-bit result as the entry stored. -/
def toEntry (v : Int) : Entry := BitVec.ofInt 16 v

/-- An 8-bit result as the channel stored. -/
def toChannel (v : Int) : Byte := BitVec.ofInt 8 v

end Sys2Proof.Machine
end

