-- ==== Sys2Proof/Machine/Bus.lean ====
section
/-! DEFINITION. The host's accesses (spec/20_memory.md): the address map, bad accesses, the register and window reads and
writes, accesses while a command is pending, the byte lanes. -/

namespace Sys2Proof.Machine

/-- What an offset of the aperture addresses (R52). -/
inductive Region where
  | id
  | ctrl
  | status
  | errcode
  | cmd
  | qtdef
  /-- Entry i of table slot t (R55). -/
  | qt (t i : Nat)
  /-- Entry i of block buffer b (R56). -/
  | blk (b i : Nat)
  /-- Pixel i of output buffer o (R57). -/
  | out (o i : Nat)
  /-- A reserved offset (R59). -/
  | reserved
deriving DecidableEq, Repr

/-- The registers' part of the address map, at a word-aligned offset below 0x400 (R52). -/
def registerAt (off : Nat) : Region :=
  match off with
  | 0x000 => .id
  | 0x004 => .ctrl
  | 0x008 => .status
  | 0x00C => .errcode
  | 0x010 => .cmd
  | 0x014 => .qtdef
  | _ => .reserved

/-- The address map, at a word-aligned offset (R52, R55 to R57). -/
def regionAt (off : Nat) : Region :=
  if off < 0x400 then registerAt off
  else if off < 0x800 then .qt ((off - 0x400) / 0x100) ((off - 0x400) % 0x100 / 4)
  else if off < 0x1000 then .blk ((off - 0x800) / 0x100) ((off - 0x800) % 0x100 / 4)
  else if off < 0x1400 then .out ((off - 0x1000) / 0x100) ((off - 0x1000) % 0x100 / 4)
  else .reserved

/-- The offset of an address in the aperture, none outside it (R50). -/
def apertureOffset (addr : Nat) : Option Nat :=
  if Config.base ≤ addr ∧ addr < Config.base + Config.apertureSize then some (addr - Config.base) else none

/-- An access is legal when it is 32-bit and word-aligned in the aperture; any other is bad (R53, log 11). -/
def goodAccess (off bytes : Nat) : Bool := bytes == 4 && off % 4 == 0

/-- A QT entry on the bus: zero-extended (R55). -/
def qtBusWord (e : Entry) : Word := e.setWidth 32

/-- A BLK entry on the bus: sign-extended (R56). -/
def blkBusWord (e : Entry) : Word := e.signExtend 32

/-- A pixel on the bus: 0 in bits 31:24, B in 23:16, G in 15:8, R in 7:0 (R57). -/
def pixelBusWord (p : Pixel) : Word := p.b.setWidth 32 <<< 16 ||| p.g.setWidth 32 <<< 8 ||| p.r.setWidth 32

/-- Byte lane k of a bus word, bits [8k+7:8k] (R54). -/
def byteLane (k : Nat) (w : Word) : Byte := w.extractLsb' (8 * k) 8

/-- The pixel a read finds where none was written: three free channels of draw `n` (log 6). -/
def freePixel (n : Nat) : Pixel := ⟨Config.freeByte n 0, Config.freeByte n 1, Config.freeByte n 2⟩

/-- The word a legal read returns (R21 to R26, R55 to R57, R59). While BUSY = 1 a window read is any 32-bit word (R60);
an entry never written is any value of its width (D30; log 4, log 6). -/
def readWord (off : Nat) (s : State) : Word :=
  match regionAt off with
  | .id => idWord
  | .ctrl => ctrlWord s
  | .status => statusWord s
  | .errcode => errcodeWord s
  | .cmd => 0
  | .qtdef => qtdefWord s
  | .qt t i => if s.busy then Config.freeWord s.draws else qtBusWord ((qtEntry s t i).getD (Config.freeEntry s.draws 0))
  | .blk b i => if s.busy then Config.freeWord s.draws else blkBusWord ((blkEntry s b i).getD (Config.freeEntry s.draws 0))
  | .out o i => if s.busy then Config.freeWord s.draws else pixelBusWord ((outPixel s o i).getD (freePixel s.draws))
  | .reserved => 0

/-- A host read at an offset: a bad one returns 0 and records error 6 (R53); a legal one changes nothing but the model's
own fields (R58). -/
def hostRead (off bytes : Nat) (s : State) : State :=
  if goodAccess off bytes then nextDraw (returnWord (readWord off s) s)
  else returnWord 0 (recordError .badAccess s)

/-- A write of CMD (R201). -/
def writeCmd (w : Word) (s : State) : State :=
  if s.busy then recordError .cmdWhileBusy s
  else if s.err then s
  else acceptCommand w s

/-- A write of the QT window, the BLK window or QTDEF: discarded with error 5 while BUSY = 1 (R60). -/
def writeUnlessBusy (upd : State → State) (s : State) : State :=
  if s.busy then recordError .accessWhileBusy s else upd s

/-- A legal write (R21 to R26, R55 to R57, R59). -/
def writeWord (off : Nat) (w : Word) (s : State) : State :=
  match regionAt off with
  | .id => s
  | .ctrl => writeCtrl w s
  | .status => writeStatus w s
  | .errcode => s
  | .cmd => writeCmd w s
  | .qtdef => writeUnlessBusy (fun s => { s with qtdef := w.setWidth 4 }) s
  | .qt t i => writeUnlessBusy (writeQtEntry t i (w.setWidth 16)) s
  | .blk b i => writeUnlessBusy (writeBlkEntry b i (w.setWidth 16)) s
  | .out _ _ => s
  | .reserved => s

/-- A host write at an offset: a bad one records error 6 and changes nothing else (R53). -/
def hostWrite (off bytes : Nat) (w : Word) (s : State) : State :=
  if goodAccess off bytes then writeWord off w s else recordError .badAccess s

end Sys2Proof.Machine
end

