-- ==== Sys2Proof/Machine/Color.lean ====
section
/-! DEFINITION. The colour matrix, the chroma upsampling, CCONV and GRAY (spec/42_color.md). -/

namespace Sys2Proof.Machine

/-- The matrix's Q14 constants (R150). -/
def kR : Int := 22970
def kGB : Int := 5636
def kGR : Int := 11698
def kB : Int := 29032

/-- R of YCC (R152). -/
def yccR (y cr : Int) : Int := clamp8 (y + 128 + asr (kR * cr + 8192) 14)

/-- G of YCC: both chroma products before the one rounding (R152). -/
def yccG (y cb cr : Int) : Int := clamp8 (y + 128 + asr (-(kGB * cb) - kGR * cr + 8192) 14)

/-- B of YCC (R152). -/
def yccB (y cb : Int) : Int := clamp8 (y + 128 + asr (kB * cb + 8192) 14)

/-- YCC (R152). -/
def yccPixel (y cb cr : Int) : Pixel where
  r := toChannel (yccR y cr)
  g := toChannel (yccG y cb cr)
  b := toChannel (yccB y cb)

/-- The level-shifted luma L of GRAY (R155). -/
def grayLevel (y : Int) : Int := clamp8 (y + 128)

/-- The pixel (L, L, L) (R155). -/
def grayPixel (y : Int) : Pixel where
  r := toChannel (grayLevel y)
  g := toChannel (grayLevel y)
  b := toChannel (grayLevel y)

/-- The chroma index of pixel `i` = 8*y + x (R153, R154). -/
def pixelChroma (h v hs vs : Fin 2) (i : Nat) : Nat := chromaIndex h v hs vs (i % 8) (i / 8)

/-- CCONV (R153): the sampling check, then each pixel from its luma and its chroma samples, each read by itself. -/
def execCconv (ry rcb rcr : Fin 8) (ro : Fin 4) (h v hs vs : Fin 2) (s : State) : Host.Outcome State Fault Refusal :=
  if offsetsLegal h v hs vs then
    .next (nextDraw (complete (storeOut ro (fun i =>
      yccPixel (readCoef s ry i (readNumber 0 i)) (readCoef s rcb (pixelChroma h v hs vs i) (readNumber 1 i))
        (readCoef s rcr (pixelChroma h v hs vs i) (readNumber 2 i))) s)))
  else .next (recordError .badSampling s)

/-- GRAY (R155). -/
def execGray (ry : Fin 8) (ro : Fin 4) (s : State) : Host.Outcome State Fault Refusal :=
  .next (nextDraw (complete (storeOut ro (fun i => grayPixel (readCoef s ry i (readNumber 0 i))) s)))

end Sys2Proof.Machine
end

