-- ==== Sys2Proof/Machine/Control.lean ====
section
/-! DEFINITION. The control commands NOP and CLR (spec/43_control.md). -/

namespace Sys2Proof.Machine

/-- NOP (R180). -/
def execNop (s : State) : Host.Outcome State Fault Refusal :=
  .next (complete s)

/-- CLR (R181): its entries count as written. -/
def execClr (rd : Fin 8) (s : State) : Host.Outcome State Fault Refusal :=
  .next (complete (storeBlk rd (fun _ => 0) s))

end Sys2Proof.Machine
end

