-- ==== Sys2Proof/Machine/Dequant.lean ====
section
/-! DEFINITION. The dequantizer and DEQ (spec/40_dequant.md). -/

namespace Sys2Proof.Machine

/-- The exact product p of entry i of DQ(b, t) (R100). -/
def dqProduct (s : State) (b : Fin 8) (t : Fin 4) (i : Nat) : Int :=
  readCoef s b i (readNumber 0 i) * readQuant s t i (readNumber 1 i)

/-- The values r[i] of DQ(b, t) (R100). -/
def dqValue (s : State) (b : Fin 8) (t : Fin 4) (i : Nat) : Int := sat16 (dqProduct s b t i)

/-- The overflow bit of DQ(b, t) (R100). -/
def dqSat (s : State) (b : Fin 8) (t : Fin 4) : Bool := satAny (dqProduct s b t)

/-- DEQ (R101): the slot check, then all products read before any write (R13). -/
def execDeq (rd rs : Fin 8) (qt : Fin 4) (s : State) : Host.Outcome State Fault Refusal :=
  if slotDefined s qt then
    .next (nextDraw (complete (raiseSat (dqSat s rs qt) (storeBlk rd (fun i => toEntry (dqValue s rs qt i)) s))))
  else .next (recordError .qtUndefined s)

end Sys2Proof.Machine
end

