-- ==== Sys2Proof/Machine/Idct.lean ====
section
/-! DEFINITION. The inverse DCT: constants, the 8-point pass stage by stage, the 2-D transform, IDCT and DQI
(spec/41_idct.md). A vector of the rules is a function of its index. -/

namespace Sys2Proof.Machine

/-- The input scale factors S0 to S7 of one pass, in Q14 (R120). -/
def s0 : Int := 5793
def s1 : Int := 8035
def s2 : Int := 7568
def s3 : Int := 6811
def s4 : Int := 5793
def s5 : Int := 4551
def s6 : Int := 3135
def s7 : Int := 1598

/-- The multipliers M1 to M5 inside the butterfly, in Q14 (R120). -/
def m1 : Int := 23170
def m2 : Int := 17734
def m3 : Int := 23170
def m4 : Int := 42813
def m5 : Int := 12540

/-- Stage g: input scaling and reordering (R121). -/
def stageG (a : Nat → Int) : Nat → Int
  | 0 => mulK (a 0) s0
  | 1 => mulK (a 4) s4
  | 2 => mulK (a 2) s2
  | 3 => mulK (a 6) s6
  | 4 => mulK (a 5) s5
  | 5 => mulK (a 1) s1
  | 6 => mulK (a 7) s7
  | 7 => mulK (a 3) s3
  | _ => 0

/-- Stage f (R121). -/
def stageF (g : Nat → Int) : Nat → Int
  | 0 => g 0
  | 1 => g 1
  | 2 => g 2
  | 3 => g 3
  | 4 => g 4 - g 7
  | 5 => g 5 + g 6
  | 6 => g 5 - g 6
  | 7 => g 4 + g 7
  | _ => 0

/-- Stage e (R121). -/
def stageE (f : Nat → Int) : Nat → Int
  | 0 => f 0
  | 1 => f 1
  | 2 => f 2 - f 3
  | 3 => f 2 + f 3
  | 4 => f 4
  | 5 => f 5 - f 7
  | 6 => f 6
  | 7 => f 5 + f 7
  | 8 => f 4 + f 6
  | _ => 0

/-- Stage d: the five multiplications (R121). -/
def stageD (e : Nat → Int) : Nat → Int
  | 0 => e 0
  | 1 => e 1
  | 2 => mulK (e 2) m1
  | 3 => e 3
  | 4 => mulK (e 4) m2
  | 5 => mulK (e 5) m3
  | 6 => mulK (e 6) m4
  | 7 => e 7
  | 8 => mulK (e 8) m5
  | _ => 0

/-- Stage c (R121). Its value c8 is c5 - c6, that is (d5 + d7) - (d6 - d8). -/
def stageC (d : Nat → Int) : Nat → Int
  | 0 => d 0 + d 1
  | 1 => d 0 - d 1
  | 2 => d 2 - d 3
  | 3 => d 3
  | 4 => d 4 + d 8
  | 5 => d 5 + d 7
  | 6 => d 6 - d 8
  | 7 => d 7
  | 8 => (d 5 + d 7) - (d 6 - d 8)
  | _ => 0

/-- Stage b (R121). -/
def stageB (c : Nat → Int) : Nat → Int
  | 0 => c 0 + c 3
  | 1 => c 1 + c 2
  | 2 => c 1 - c 2
  | 3 => c 0 - c 3
  | 4 => c 4 - c 8
  | 5 => c 8
  | 6 => c 6 - c 7
  | 7 => c 7
  | _ => 0

/-- The outputs of the pass (R121). -/
def stageOut (b : Nat → Int) : Nat → Int
  | 0 => b 0 + b 7
  | 1 => b 1 + b 6
  | 2 => b 2 + b 5
  | 3 => b 3 + b 4
  | 4 => b 3 - b 4
  | 5 => b 2 - b 5
  | 6 => b 1 - b 6
  | 7 => b 0 - b 7
  | _ => 0

/-- The pass function P on eight values (R121). -/
def idctPass (a : Nat → Int) : Nat → Int :=
  stageOut (stageB (stageC (stageD (stageE (stageF (stageG a))))))

/-- The column pass: W[8*k + i] is output k of column i (R122). -/
def columnPass (x : Nat → Int) (n : Nat) : Int :=
  idctPass (fun k => x (8 * k + n % 8) * 2 ^ Config.f) (n / 8)

/-- The row pass: V[8*r + k] is output k of row r (R122). -/
def rowPass (w : Nat → Int) (n : Nat) : Int :=
  idctPass (fun k => w (8 * (n / 8) + k)) (n % 8)

/-- The rounded value t of output i, before saturation (R122, R123). -/
def idctRounded (x : Nat → Int) (i : Nat) : Int :=
  asr (rowPass (columnPass x) i + 2 ^ (Config.f - 1)) Config.f

/-- The samples of IDCT2 (R122). -/
def idct2 (x : Nat → Int) (i : Nat) : Int := sat16 (idctRounded x i)

/-- The overflow bit of IDCT2 (R122, R134). -/
def idct2Sat (x : Nat → Int) : Bool := satAny (idctRounded x)

/-- The source block of an IDCT as the command reads it (R133). -/
def idctSource (s : State) (b : Fin 8) (i : Nat) : Int := readCoef s b i (readNumber 0 i)

/-- IDCT (R133): all inputs are read before any write (R13). -/
def execIdct (rd rs : Fin 8) (s : State) : Host.Outcome State Fault Refusal :=
  .next (nextDraw (complete (raiseSat (idct2Sat (idctSource s rs))
    (storeBlk rd (fun i => toEntry (idct2 (idctSource s rs) i)) s))))

/-- DQI (R135): the slot check, DQ, IDCT2, no intermediate buffer. -/
def execDqi (rd rs : Fin 8) (qt : Fin 4) (s : State) : Host.Outcome State Fault Refusal :=
  if slotDefined s qt then
    .next (nextDraw (complete (raiseSat (dqSat s rs qt || idct2Sat (dqValue s rs qt))
      (storeBlk rd (fun i => toEntry (idct2 (dqValue s rs qt) i)) s))))
  else .next (recordError .qtUndefined s)

end Sys2Proof.Machine
end

