-- ==== Sys2Proof/Machine/Dispatch.lean ====
section
/-! DEFINITION. The effect of each legal command in its engine step (spec/60_exceptions.md R202), one arm per command. -/

namespace Sys2Proof.Machine

def exec (i : Instr) (s : State) : Host.Outcome State Fault Refusal :=
  match i with
  | .nop => Sys2Proof.Machine.execNop s
  | .deq rd rs qt => Sys2Proof.Machine.execDeq rd rs qt s
  | .idct rd rs => Sys2Proof.Machine.execIdct rd rs s
  | .cconv ry rcb rcr ro h v hs vs => Sys2Proof.Machine.execCconv ry rcb rcr ro h v hs vs s
  | .gray ry ro => Sys2Proof.Machine.execGray ry ro s
  | .clr rd => Sys2Proof.Machine.execClr rd s
  | .dqi rd rs qt => Sys2Proof.Machine.execDqi rd rs qt s

end Sys2Proof.Machine
end

