-- ==== Sys2Proof/Machine/Agents.lean ====
section
/-! DEFINITION. The agents' steps: the engine step (spec/60_exceptions.md R202) and one turn of any agent (R200). -/

namespace Sys2Proof.Machine

/-- The engine step of a pending command (R202): BUSY becomes 0; a command accepted before an error is dropped; an
illegal word records error 1 (R85); a legal word runs its command. -/
def engineStep (s : State) : Host.Outcome State Fault Refusal :=
  if s.err then .next (takeCommand s)
  else
    match decode s.pend with
    | .ok i => exec i (takeCommand s)
    | .error _ => .next (recordError .illegalCmd (takeCommand s))

/-- The engine's turn: an engine step is enabled exactly when BUSY = 1 (R202); with BUSY = 0 the block is idle and all
state is kept (R219; log 14). -/
def engineTurn (s : State) : Host.Outcome State Fault Refusal :=
  if s.busy then engineStep s else .next s

/-- A host access reaches the block only inside the aperture (R50; log 9). -/
def atAperture (addr : Nat) (act : Nat → State → State) (s : State) : Host.Outcome State Fault Refusal :=
  match apertureOffset addr with
  | some off => .next (act off s)
  | none => .fault .outsideAperture

/-- One turn of an agent (R62, R200, R240). -/
def turn (e : Event) (s : State) : Host.Outcome State Fault Refusal :=
  match e with
  | .read addr bytes => atAperture addr (fun off => hostRead off bytes) s
  | .write addr bytes w => atAperture addr (fun off => hostWrite off bytes w) s
  | .engine => engineTurn s
  | .hardReset => .next (hardwareReset s)

end Sys2Proof.Machine
end

