-- ==== Sys2Proof/Machine/Step.lean ====
section
/-! DEFINITION. One step of the machine: the next turn (spec/20_memory.md R62). -/

namespace Sys2Proof.Machine

/-- One step: the first turn of `inputs`. Where the world does nothing more, the engine has the turn, so that an enabled
engine step is taken at last (R202's weak fairness; log 1, log 2). -/
def step (s : State) : Host.Outcome State Fault Refusal :=
  match s.inputs with
  | [] => engineTurn s
  | e :: rest => turn e { s with inputs := rest }

/-- The state in which a command word has been accepted (R201) with no error recorded, and the engine has the next turn,
so that the very next step is its engine step (log 3). -/
def State.withFetchWord (s : State) (nbits w : Nat) : State :=
  { acceptCommand (tableWord nbits w) (clearError s) with inputs := .engine :: s.inputs }

end Sys2Proof.Machine
end

