-- ==== Sys2Proof/Machine/Assembler.lean ====
section
/-! DEFINITION. Assembler lines to words and back, and their text (spec/30_encoding.md R87, R88; log 20). Notation only: no
step of the machine uses it. -/

namespace Sys2Proof

/-- A buffer, slot or bit of an accepted line as a field. -/
def field8 (n : Nat) : Fin 8 := Fin.ofNat 8 n
def field4 (n : Nat) : Fin 4 := Fin.ofNat 4 n
def field2 (n : Nat) : Fin 2 := Fin.ofNat 2 n

/-- The word of an accepted core line (R87): HS = HSF - 1, VS = VSF - 1. A pseudo-command has none before expansion. -/
def AsmLine.coreWord : AsmLine → Option Word
  | .nop => some (encode .nop)
  | .deq d s t => some (encode (.deq (field8 d) (field8 s) (field4 t)))
  | .idct d s => some (encode (.idct (field8 d) (field8 s)))
  | .cconv o y cb cr h v hsf vsf => some (encode (.cconv (field8 y) (field8 cb) (field8 cr) (field4 o)
      (field2 h) (field2 v) (field2 (hsf - 1)) (field2 (vsf - 1))))
  | .gray o y => some (encode (.gray (field8 y) (field4 o)))
  | .clr d => some (encode (.clr (field8 d)))
  | .dqi d s t => some (encode (.dqi (field8 d) (field8 s) (field4 t)))
  | .word w => some w
  | .cconv444 _ _ _ _ => none
  | .cconv422 _ _ _ _ _ => none
  | .cconv440 _ _ _ _ _ => none
  | .cconv420 _ _ _ _ _ _ => none

/-- The word an assembler writes for a line, none where it refuses the line (R87, R88). -/
def assemble (l : AsmLine) : Option Word :=
  if l.wellFormed then l.expand.coreWord else none

/-- The line of a command: a CCONV the assembler refuses is a raw word (R87). -/
def disassemble : Instr → AsmLine
  | .nop => .nop
  | .deq rd rs qt => .deq rd rs qt
  | .idct rd rs => .idct rd rs
  | .cconv ry rcb rcr ro h v hs vs =>
    if offsetsLegal h v hs vs then .cconv ro ry rcb rcr h v (samplingFactor hs) (samplingFactor vs)
    else .word (encode (.cconv ry rcb rcr ro h v hs vs))
  | .gray ry ro => .gray ro ry
  | .clr rd => .clr rd
  | .dqi rd rs qt => .dqi rd rs qt

/-- An operand's text (R87): b0 to b7, q0 to q3, o0 to o3, decimal numbers. -/
def bufferText (n : Nat) : String := "b" ++ toString n
def slotText (n : Nat) : String := "q" ++ toString n
def outputText (n : Nat) : String := "o" ++ toString n

/-- A hexadecimal digit. -/
def hexDigit (n : Nat) : String := String.singleton (Nat.digitChar n)

/-- A word's text, 0x and eight digits (R8). -/
def hexText (w : Word) : String :=
  (List.range 8).foldl (fun acc k => acc ++ (hexDigit (w.toNat / 16 ^ (7 - k) % 16)).toUpper) "0x"

/-- A line: the mnemonic in lower case and comma-separated operands (R87). -/
def lineText (mnemonic : String) (operands : List String) : String :=
  match operands with
  | [] => mnemonic
  | _ => mnemonic ++ " " ++ ", ".intercalate operands

/-- The text of a line (R87, R88). -/
def AsmLine.text : AsmLine → String
  | .nop => lineText "nop" []
  | .deq d s t => lineText "deq" [bufferText d, bufferText s, slotText t]
  | .idct d s => lineText "idct" [bufferText d, bufferText s]
  | .cconv o y cb cr h v hsf vsf => lineText "cconv"
      [outputText o, bufferText y, bufferText cb, bufferText cr, toString h, toString v, toString hsf, toString vsf]
  | .gray o y => lineText "gray" [outputText o, bufferText y]
  | .clr d => lineText "clr" [bufferText d]
  | .dqi d s t => lineText "dqi" [bufferText d, bufferText s, slotText t]
  | .cconv444 o y cb cr => lineText "cconv444" [outputText o, bufferText y, bufferText cb, bufferText cr]
  | .cconv422 o y cb cr h => lineText "cconv422" [outputText o, bufferText y, bufferText cb, bufferText cr, toString h]
  | .cconv440 o y cb cr v => lineText "cconv440" [outputText o, bufferText y, bufferText cb, bufferText cr, toString v]
  | .cconv420 o y cb cr h v =>
    lineText "cconv420" [outputText o, bufferText y, bufferText cb, bufferText cr, toString h, toString v]
  | .word w => lineText ".word" [hexText w]

end Sys2Proof
end

