-- ==== Sys2Proof/Machine/HostProgram.lean ====
section
/-! DEFINITION. The notation of host programs (spec/30_encoding.md R89) as turns, and the end of a host program
(spec/70_reset_and_hazards.md R249). -/

namespace Sys2Proof.Machine

/-- `sw OFF, VALUE` (R89). -/
def sw (off : Nat) (v : Word) : Event := .write (Config.base + off) 4 v

/-- `lw OFF` (R89). -/
def lw (off : Nat) : Event := .read (Config.base + off) 4

/-- `cmd <command>` (R89). -/
def cmd (i : Instr) : Event := sw 0x010 (encode i)

/-- `wait` (R89) in an execution where the host polls STATUS `k` times before the engine step and once after it (log 21). -/
def waitPolls (k : Nat) : List Event := List.replicate k (lw 0x008) ++ [.engine, lw 0x008]

/-- Several steps, up to the first stop. -/
def runSteps : Nat → State → Host.Outcome State Fault Refusal
  | 0, s => .next s
  | n + 1, s =>
    match step s with
    | .next t => runSteps n t
    | .fault r => .fault r
    | .refused r => .refused r

/-- A turn that is a host access. -/
def Event.isAccess : Event → Bool
  | .read _ _ => true
  | .write _ _ _ => true
  | .engine => false
  | .hardReset => false

/-- The host has performed its last access and BUSY = 0 (R249). -/
def State.programEnded (s : State) : Bool := s.inputs.all (fun e => !e.isAccess) && !s.busy

end Sys2Proof.Machine
end

