-- ==== Sys2Proof/Safety.lean ====
section
/-! DEFINITION. The terms claims use: whose turn it is, what a turn addresses, and the invariant of the block. -/

namespace Sys2Proof.Machine

/-- The engine has the next turn and a command to run: the next step is an engine step (R202). -/
def EngineNext (s : State) : Bool :=
  s.busy &&
    match s.inputs with
    | [] => true
    | .engine :: _ => true
    | _ => false

/-- The state as the next step's agent finds it: its turn is taken off the script. -/
def turnTaken (s : State) : State := { s with inputs := s.inputs.tail }

/-- The host has the next turn, and writes `w` at an offset by a legal access (R53). -/
def WritesNext (s : State) (off : Nat) (w : Word) : Prop :=
  off % 4 = 0 ∧ off < Config.apertureSize ∧ s.inputs.head? = some (sw off w)

/-- The host has the next turn, and reads an offset by a legal access (R53). -/
def ReadsNext (s : State) (off : Nat) : Prop :=
  off % 4 = 0 ∧ off < Config.apertureSize ∧ s.inputs.head? = some (lw off)

/-- A turn that addresses the block, or no access at all (R50). -/
def Event.inAperture : Event → Prop
  | .read addr _ => Config.base ≤ addr ∧ addr < Config.base + Config.apertureSize
  | .write addr _ _ => Config.base ≤ addr ∧ addr < Config.base + Config.apertureSize
  | .engine => True
  | .hardReset => True

/-- The next turn is a hardware reset, or a soft reset by a legal write of CTRL (R240). -/
def ResetNext (s : State) : Prop :=
  s.inputs.head? = some .hardReset ∨ ∃ v : Word, v.getLsbD 0 = true ∧ WritesNext s 0x004 v

/-- The value of an entry of BLK, sext_16 (R9), none where it was never written. -/
def coef (s : State) (b : Fin 8) (i : Nat) : Option Int := (blkEntry s b i).map BitVec.toInt

/-- Every entry of block buffer b is written. -/
def BlkWritten (s : State) (b : Fin 8) : Prop := ∀ i < 64, (blkEntry s b i).isSome = true

/-- Every entry of table slot t is written. -/
def QtWritten (s : State) (t : Fin 4) : Prop := ∀ i < 64, (qtEntry s t i).isSome = true

/-- Every chroma entry that a CCONV of these factors and offsets reads in buffer b is written (R154). -/
def ChromaWritten (s : State) (b : Fin 8) (h v hs vs : Fin 2) : Prop :=
  ∀ x < 8, ∀ y < 8, (blkEntry s b (chromaIndex h v hs vs x y)).isSome = true

/-- What sixty-four reads of BLK[b], the n-th at index `index n`, may find (R9, R29, D30): the entry's value where it is
written, any 16-bit signed value where it is not. -/
def BlkReads (s : State) (b : Fin 8) (index : Nat → Nat) (x : Nat → Int) : Prop :=
  ∀ n < 64, (-32768 ≤ x n ∧ x n ≤ 32767) ∧ ∀ e : Entry, blkEntry s b (index n) = some e → x n = e.toInt

/-- What sixty-four reads of QT[t] in order may find (R9, R28, D30): the entry's value where it is written, any 16-bit
unsigned value where it is not. -/
def QtReads (s : State) (t : Fin 4) (q : Nat → Int) : Prop :=
  ∀ n < 64, (0 ≤ q n ∧ q n ≤ 65535) ∧ ∀ e : Entry, qtEntry s t n = some e → q n = e.toNat

/-- The value of a written entry of BLK, sext_16 (R9); 0 is never read where `BlkWritten` holds. -/
def blkVal (s : State) (b : Fin 8) (i : Nat) : Int := ((blkEntry s b i).getD 0).toInt

/-- The value of a written entry of QT, zext_16 (R9); 0 is never read where `QtWritten` holds. -/
def qtVal (s : State) (t : Fin 4) (i : Nat) : Int := (((qtEntry s t i).getD 0).toNat : Int)

/-- An n-bit two's complement field holds the value (R138). -/
def fitsSigned (n : Nat) (v : Int) : Prop := -(2 ^ (n - 1)) ≤ v ∧ v < 2 ^ (n - 1)

/-- The widths of one pass on eight inputs: every stage value, every output, and every product inside mulK fits (R138). -/
def PassFits (stage out product : Nat) (a : Nat → Int) : Prop :=
  let g := stageG a
  let f := stageF g
  let e := stageE f
  let d := stageD e
  let c := stageC d
  let b := stageB c
  (∀ k ≤ 8, fitsSigned stage (g k) ∧ fitsSigned stage (f k) ∧ fitsSigned stage (e k) ∧ fitsSigned stage (d k)
      ∧ fitsSigned stage (c k) ∧ fitsSigned stage (b k))
    ∧ (∀ k ≤ 7, fitsSigned out (idctPass a k))
    ∧ fitsSigned product (a 0 * s0) ∧ fitsSigned product (a 1 * s1) ∧ fitsSigned product (a 2 * s2)
    ∧ fitsSigned product (a 3 * s3) ∧ fitsSigned product (a 4 * s4) ∧ fitsSigned product (a 5 * s5)
    ∧ fitsSigned product (a 6 * s6) ∧ fitsSigned product (a 7 * s7)
    ∧ fitsSigned product (e 2 * m1) ∧ fitsSigned product (e 4 * m2) ∧ fitsSigned product (e 5 * m3)
    ∧ fitsSigned product (e 6 * m4) ∧ fitsSigned product (e 8 * m5)

/-- Where a command has its own effect and no error of its own (R86): DEQ and DQI on a defined slot, CCONV with offsets
below their factors, every other command always. -/
def Runs (i : Instr) (s : State) : Prop :=
  match i with
  | .nop => True
  | .deq _ _ qt => slotDefined s qt = true
  | .idct _ _ => True
  | .cconv _ _ _ _ h v hs vs => offsetsLegal h v hs vs = true
  | .gray _ _ => True
  | .clr _ => True
  | .dqi _ _ qt => slotDefined s qt = true

/-- What holds of the block in every run: its RAMs are in canonical form, CODE is 0 exactly while ERR is 0 (R24), no
reserved code is recorded (R205), and DONE is 0 while a command is pending (R63, R201). -/
def State.Inv (s : State) : Prop :=
  Memory.wf (Config.nQt * Config.nElem) s.qt = true ∧ Memory.wf (Config.nBlk * Config.nElem) s.blk = true
    ∧ Memory.wf (Config.nOut * Config.nElem) s.out = true
    ∧ (s.errcode = 0 ↔ s.err = false) ∧ s.errcode.toNat ≤ 6 ∧ (s.busy = true → s.done = false)

end Sys2Proof.Machine
end

