-- ==== Sys2Proof/Certificates/Slice0/Obligations.lean ====
section
/-! DEFINITION. The statements for the provers. In each, `turnTaken s` is the state as the agent of the next turn finds it:
`s` with that turn taken off the script. Statements about stored values read them as signed or unsigned numbers. -/

open Sys2Proof Sys2Proof.Machine

/-! Encoding -/

/-- Decoding the encoding of any command gives it back (R81 to R83). -/
def Obligations.DecodeOfEncodeIsTheCommand : Prop :=
  ∀ i : Instr, decode (encode i) = .ok i

/-- A word that decodes is the encoding of its command: each command has one word (R81, R84). -/
def Obligations.EncodeOfDecodeIsTheWord : Prop :=
  ∀ (w : Word) (i : Instr), decode w = .ok i → encode i = w

/-- R84: "A word is that command exactly when `(word & mask) = match`". -/
def Obligations.WordIsCommandExactlyWhenMaskMatches : Prop :=
  ∀ w : Word,
    (w &&& 0xFFFFFFFF = 0x00000000 ↔ decode w = .ok .nop)
    ∧ (w &&& 0xF00FFFFF = 0x10000000 ↔ ∃ rd rs qt, decode w = .ok (.deq rd rs qt))
    ∧ (w &&& 0xF03FFFFF = 0x20000000 ↔ ∃ rd rs, decode w = .ok (.idct rd rs))
    ∧ (w &&& 0xF0001FFF = 0x30000000 ↔ ∃ ry rcb rcr ro h v hs vs, decode w = .ok (.cconv ry rcb rcr ro h v hs vs))
    ∧ (w &&& 0xF1F9FFFF = 0x40000000 ↔ ∃ ry ro, decode w = .ok (.gray ry ro))
    ∧ (w &&& 0xF1FFFFFF = 0x50000000 ↔ ∃ rd, decode w = .ok (.clr rd))
    ∧ (w &&& 0xF00FFFFF = 0x60000000 ↔ ∃ rd rs qt, decode w = .ok (.dqi rd rs qt))

/-- R82: each field of a decoded command is the number its bits hold. -/
def Obligations.FieldsAreTheNumbersOfTheirBits : Prop :=
  ∀ (w : Word) (i : Instr), decode w = .ok i →
    match i with
    | .nop => True
    | .deq rd rs qt =>
      rd.val = w.toNat / 2 ^ 25 % 8 ∧ rs.val = w.toNat / 2 ^ 22 % 8 ∧ qt.val = w.toNat / 2 ^ 20 % 4
    | .idct rd rs => rd.val = w.toNat / 2 ^ 25 % 8 ∧ rs.val = w.toNat / 2 ^ 22 % 8
    | .cconv ry rcb rcr ro h v hs vs =>
      ry.val = w.toNat / 2 ^ 25 % 8 ∧ rcb.val = w.toNat / 2 ^ 22 % 8 ∧ rcr.val = w.toNat / 2 ^ 19 % 8
        ∧ ro.val = w.toNat / 2 ^ 17 % 4 ∧ h.val = w.toNat / 2 ^ 16 % 2 ∧ v.val = w.toNat / 2 ^ 15 % 2
        ∧ samplingFactor hs = 1 + w.toNat / 2 ^ 14 % 2 ∧ samplingFactor vs = 1 + w.toNat / 2 ^ 13 % 2
    | .gray ry ro => ry.val = w.toNat / 2 ^ 25 % 8 ∧ ro.val = w.toNat / 2 ^ 17 % 4
    | .clr rd => rd.val = w.toNat / 2 ^ 25 % 8
    | .dqi rd rs qt =>
      rd.val = w.toNat / 2 ^ 25 % 8 ∧ rs.val = w.toNat / 2 ^ 22 % 8 ∧ qt.val = w.toNat / 2 ^ 20 % 4

/-- Words of R90 decode to the commands they stand for, one of each command and the three rows that are no plain command. -/
def Obligations.ExampleWordsDecode : Prop :=
  decode 0x00000000 = .ok .nop
  ∧ decode 0x12000000 = .ok (.deq 1 0 0)
  ∧ decode 0x1FF00000 = .ok (.deq 7 7 3)
  ∧ decode 0x24400000 = .ok (.idct 2 1)
  ∧ decode 0x64100000 = .ok (.dqi 2 0 1)
  ∧ decode 0x56000000 = .ok (.clr 3)
  ∧ decode 0x31280000 = .ok (.cconv 0 4 5 0 0 0 0 0)
  ∧ decode 0x332B4000 = .ok (.cconv 1 4 5 1 1 0 1 0)
  ∧ decode 0x372FE000 = .ok (.cconv 3 4 5 3 1 1 1 1)
  ∧ decode 0x4C040000 = .ok (.gray 6 2)
  ∧ decode 0x31290000 = .ok (.cconv 0 4 5 0 1 0 0 0)
  ∧ decode 0x70000000 = .error .reservedOpcode
  ∧ decode 0x24500000 = .error .requiredZeroBit

/-- R85: a word of no row is illegal, its engine step records error 1 and writes nothing else, and only the word 0 is NOP. -/
def Obligations.IllegalWordRecordsErrorOne : Prop :=
  (∀ w : Word, (∃ e, decode w = .error e) ↔ ∀ r ∈ opcodeTable, w &&& r.mask ≠ r.pattern)
  ∧ (∀ w : Word, 7 ≤ w.toNat / 2 ^ 28 → decode w = .error .reservedOpcode)
  ∧ (∀ w : Word, decode w = .ok .nop ↔ w = 0)
  ∧ ∀ s : State, EngineNext s = true → s.err = false → (∀ r ∈ opcodeTable, s.pend &&& r.mask ≠ r.pattern) →
      step s = .next { turnTaken s with busy := false, err := true, errcode := 1 }

/-- R87, R88: the word of each line form, operand by operand, and where an assembler refuses the line; each pseudo-command is
its expansion; every accepted line but a raw word is a command whose offsets lie below its factors; and the line of such a
command is no raw word and assembles to the command's word. Lines are data (log 20). -/
def Obligations.AssemblerWritesExactlyTheWellFormedCommands : Prop :=
  assemble .nop = some 0
  ∧ (∀ d b q, assemble (.deq d b q) =
      if d < 8 ∧ b < 8 ∧ q < 4 then some (BitVec.ofNat 32 (0x10000000 + d * 2 ^ 25 + b * 2 ^ 22 + q * 2 ^ 20)) else none)
  ∧ (∀ d b, assemble (.idct d b) =
      if d < 8 ∧ b < 8 then some (BitVec.ofNat 32 (0x20000000 + d * 2 ^ 25 + b * 2 ^ 22)) else none)
  ∧ (∀ o y cb cr h v hsf vsf, assemble (.cconv o y cb cr h v hsf vsf) =
      if o < 4 ∧ y < 8 ∧ cb < 8 ∧ cr < 8 ∧ (hsf = 1 ∨ hsf = 2) ∧ (vsf = 1 ∨ vsf = 2) ∧ h < hsf ∧ v < vsf then
        some (BitVec.ofNat 32 (0x30000000 + y * 2 ^ 25 + cb * 2 ^ 22 + cr * 2 ^ 19 + o * 2 ^ 17 + h * 2 ^ 16 + v * 2 ^ 15
          + (hsf - 1) * 2 ^ 14 + (vsf - 1) * 2 ^ 13))
      else none)
  ∧ (∀ o y, assemble (.gray o y) =
      if o < 4 ∧ y < 8 then some (BitVec.ofNat 32 (0x40000000 + y * 2 ^ 25 + o * 2 ^ 17)) else none)
  ∧ (∀ d, assemble (.clr d) = if d < 8 then some (BitVec.ofNat 32 (0x50000000 + d * 2 ^ 25)) else none)
  ∧ (∀ d b q, assemble (.dqi d b q) =
      if d < 8 ∧ b < 8 ∧ q < 4 then some (BitVec.ofNat 32 (0x60000000 + d * 2 ^ 25 + b * 2 ^ 22 + q * 2 ^ 20)) else none)
  ∧ (∀ w, assemble (.word w) = some w)
  ∧ (∀ o y cb cr, assemble (.cconv444 o y cb cr) = assemble (.cconv o y cb cr 0 0 1 1))
  ∧ (∀ o y cb cr h, assemble (.cconv422 o y cb cr h) = assemble (.cconv o y cb cr h 0 2 1))
  ∧ (∀ o y cb cr v, assemble (.cconv440 o y cb cr v) = assemble (.cconv o y cb cr 0 v 1 2))
  ∧ (∀ o y cb cr h v, assemble (.cconv420 o y cb cr h v) = assemble (.cconv o y cb cr h v 2 2))
  ∧ (∀ (l : AsmLine) (w : Word), assemble l = some w → l = .word w ∨ ∃ i, decode w = .ok i ∧ i.wellFormed = true)
  ∧ ∀ i : Instr, i.wellFormed = true → assemble (disassemble i) = some (encode i) ∧ ∀ w, disassemble i ≠ .word w

/-! The command lifecycle -/

/-- A step with the engine next and no error recorded runs the command PEND decodes to, with BUSY cleared (R202). -/
def Obligations.StepRunsTheDecodedCommand : Prop :=
  ∀ (s : State) (i : Instr), EngineNext s = true → s.err = false → decode s.pend = .ok i →
    step s = exec i { turnTaken s with busy := false }

/-- R202, R207, R219: a command accepted before an error is dropped at its engine step, which only clears BUSY; with BUSY =
0 no engine step is enabled, and the idle block keeps all state. -/
def Obligations.EngineTurnsThatRunNoCommand : Prop :=
  (∀ s : State, EngineNext s = true → s.err = true → step s = .next { turnTaken s with busy := false })
  ∧ ∀ s : State, s.busy = false → (s.inputs = [] ∨ s.inputs.head? = some .engine) → step s = .next (turnTaken s)

/-- R201: a CMD write while BUSY = 1 records error 4 and keeps PEND; with ERR = 1 it is discarded; else it is accepted,
whatever the word. -/
def Obligations.CmdWriteIssuesTheWord : Prop :=
  ∀ (s : State) (w : Word), WritesNext s 0x010 w →
    (s.busy = true → step s = .next { turnTaken s with err := true, errcode := if s.err then s.errcode else 4 })
    ∧ (s.busy = false → s.err = true → step s = .next (turnTaken s))
    ∧ (s.busy = false → s.err = false →
        step s = .next { turnTaken s with pend := w, busy := true, done := false })

/-- R63: only the engine step that clears BUSY sets DONE, for a legal command run without an error, and an accepted CMD
write clears DONE. -/
def Obligations.DoneIsSetOnlyByACompletedCommand : Prop :=
  (∀ s t : State, step s = .next t → s.done = false → t.done = true →
    EngineNext s = true ∧ s.err = false ∧ t.busy = false ∧ t.err = false ∧ ∃ i, decode s.pend = .ok i)
  ∧ ∀ s t : State, step s = .next t → s.busy = false → t.busy = true →
      t.done = false ∧ t.err = false ∧ WritesNext s 0x010 t.pend

/-- R64: while a command is pending and it is not the engine's turn, a step changes none of its operands, nor PEND, unless
it is a reset; only a reset removes the command. -/
def Obligations.OperandsStayFixedWhilePending : Prop :=
  ∀ s t : State, step s = .next t → s.busy = true → EngineNext s = false → ¬ResetNext s →
    t.busy = true ∧ t.pend = s.pend ∧ t.qt = s.qt ∧ t.qtdef = s.qtdef ∧ t.blk = s.blk ∧ t.out = s.out

/-- A script of accesses to the aperture, engine turns and resets always runs to its end, and one step later the block is
idle: an enabled engine step is taken at last, and the host program has ended (R202, R248, R249). That the engine has the
turn after the last access is the model's choice (log 2). -/
def Obligations.EveryScriptEndsWithTheBlockIdle : Prop :=
  ∀ s : State, (∀ e ∈ s.inputs, e.inAperture) →
    ∃ t : State, runSteps (s.inputs.length + 1) s = .next t
      ∧ t.inputs = [] ∧ t.busy = false ∧ t.programEnded = true

/-- R89: in a `wait` that polls k times before the engine step, every one of those polls reads bit 0 as 1 and the last poll
reads it as 0, and the loop has then ended. -/
def Obligations.WaitEndsWhenTheEngineStepIsTaken : Prop :=
  ∀ (s : State) (k : Nat) (rest : List Event), s.busy = true → s.inputs = waitPolls k ++ rest →
    (∀ j < k, ∃ u : State, runSteps (j + 1) s = .next u ∧ u.rdata.getLsbD 0 = true)
    ∧ ∃ t : State, runSteps (k + 2) s = .next t
        ∧ t.rdata.getLsbD 0 = false ∧ t.busy = false ∧ t.inputs = rest

/-- A step stops only on an access outside the aperture, and never with a refusal. That such an access stops the machine is
the model's choice (R50, log 9). -/
def Obligations.StepStopsExactlyOutsideTheAperture : Prop :=
  (∀ s : State, (∃ e, s.inputs.head? = some e ∧ ¬e.inAperture) → step s = .fault .outsideAperture)
  ∧ (∀ s : State, (∀ e, s.inputs.head? = some e → e.inAperture) → ∃ t, step s = .next t)

/-! Errors -/

/-- R205: a step that sets ERR has one of the causes of the table, and records that cause's code. -/
def Obligations.ErrorsHaveTheirCause : Prop :=
  ∀ s t : State, step s = .next t → s.err = false → t.err = true →
    (t.errcode = 1 ∧ EngineNext s = true ∧ ∃ e, decode s.pend = .error e)
    ∨ (t.errcode = 2 ∧ EngineNext s = true ∧ ∃ rd rs qt, slotDefined s qt = false
        ∧ (decode s.pend = .ok (.deq rd rs qt) ∨ decode s.pend = .ok (.dqi rd rs qt)))
    ∨ (t.errcode = 3 ∧ EngineNext s = true ∧ ∃ ry rcb rcr ro h v hs vs,
        decode s.pend = .ok (.cconv ry rcb rcr ro h v hs vs) ∧ ((h = 1 ∧ hs = 0) ∨ (v = 1 ∧ vs = 0)))
    ∨ (t.errcode = 4 ∧ s.busy = true ∧ ∃ w, WritesNext s 0x010 w)
    ∨ (t.errcode = 5 ∧ s.busy = true ∧ ∃ off w, WritesNext s off w ∧ (off = 0x014 ∨ 0x400 ≤ off ∧ off < 0x1000))
    ∨ (t.errcode = 6 ∧ ∃ off bytes, off < 0x2000 ∧ ¬(bytes = 4 ∧ off % 4 = 0)
        ∧ (s.inputs.head? = some (.read (Config.base + off) bytes)
          ∨ ∃ w, s.inputs.head? = some (.write (Config.base + off) bytes w)))

/-- R203: while ERR stays 1 a step leaves ERRCODE unchanged, and no step clears ERR but a reset and a STATUS write with bit
2 = 1. -/
def Obligations.FirstErrorCodeIsKept : Prop :=
  (∀ s t : State, step s = .next t → s.err = true → t.err = true → t.errcode = s.errcode)
  ∧ ∀ s t : State, step s = .next t → s.err = true → t.err = false →
      ResetNext s ∨ ∃ v : Word, v.getLsbD 2 = true ∧ WritesNext s 0x008 v

/-- R208: a command that records an error changes only BUSY, ERR and ERRCODE, and a host access that records one changes
only ERR and ERRCODE; if it is a read, it returns 0. -/
def Obligations.ErrorsArePrecise : Prop :=
  (∀ s t : State, step s = .next t → EngineNext s = true → s.err = false → t.err = true →
    t = { turnTaken s with busy := false, err := true, errcode := t.errcode })
  ∧ ∀ s t : State, step s = .next t → EngineNext s = false → s.err = false → t.err = true →
      t = { turnTaken s with
            err := true
            errcode := t.errcode
            rdata := match s.inputs.head? with
              | some (.read _ _) => 0
              | _ => s.rdata }

/-- R86: the slot check of DEQ and DQI records error 2, the sampling check of CCONV records error 3, and nothing else
changes but BUSY. -/
def Obligations.FailedChecksRecordTheirErrors : Prop :=
  (∀ (s : State) (rd rs : Fin 8) (qt : Fin 4), EngineNext s = true → s.err = false → slotDefined s qt = false →
    (decode s.pend = .ok (.deq rd rs qt) ∨ decode s.pend = .ok (.dqi rd rs qt)) →
      step s = .next { turnTaken s with busy := false, err := true, errcode := 2 })
  ∧ ∀ (s : State) (ry rcb rcr : Fin 8) (ro : Fin 4) (h v hs vs : Fin 2), EngineNext s = true → s.err = false →
      (samplingFactor hs ≤ h.val ∨ samplingFactor vs ≤ v.val) →
      decode s.pend = .ok (.cconv ry rcb rcr ro h v hs vs) →
        step s = .next { turnTaken s with busy := false, err := true, errcode := 3 }

/-- R212: a STATUS write with bit 2 = 1 sets ERR and ERRCODE to 0 and keeps QT, QTDEF, BLK, OUT and PEND, after which a CMD
write is accepted again. -/
def Obligations.ReturnFromErrorAcceptsCommandsAgain : Prop :=
  ∀ (s : State) (v w : Word), v.getLsbD 2 = true → s.busy = false → WritesNext s 0x008 v →
    WritesNext (turnTaken s) 0x010 w →
      ∃ t u : State, step s = .next t ∧ step t = .next u
        ∧ t.err = false ∧ t.errcode = 0 ∧ t.busy = false ∧ t.pend = s.pend
        ∧ t.qt = s.qt ∧ t.qtdef = s.qtdef ∧ t.blk = s.blk ∧ t.out = s.out
        ∧ u.busy = true ∧ u.pend = w ∧ u.err = false

/-! Reset and the invariant -/

/-- R33: the state after hardware reset, and the registers after a soft reset. -/
def Obligations.ResetValues : Prop :=
  (readWord 0x000 State.reset = 0x1DC70007 ∧ readWord 0x004 State.reset = 0 ∧ readWord 0x008 State.reset = 0
    ∧ readWord 0x00C State.reset = 0 ∧ readWord 0x014 State.reset = 0 ∧ State.reset.busy = false
    ∧ irq State.reset = false
    ∧ ∀ k, Memory.read State.reset.qt k = none ∧ Memory.read State.reset.blk k = none
        ∧ Memory.read State.reset.out k = none)
  ∧ ∀ s : State, readWord 0x000 (softReset s) = 0x1DC70007 ∧ readWord 0x004 (softReset s) = 0
      ∧ readWord 0x008 (softReset s) = 0 ∧ readWord 0x00C (softReset s) = 0 ∧ readWord 0x014 (softReset s) = 0
      ∧ (softReset s).busy = false ∧ irq (softReset s) = false
      ∧ (softReset s).qt = s.qt ∧ (softReset s).blk = s.blk ∧ (softReset s).out = s.out

/-- R241: a hardware reset, in any state: every register 0, no command pending, no entry written. That the rest of the
script, the last read word and the number of draws stay is the model's choice (log 13). -/
def Obligations.HardwareResetFromAnyState : Prop :=
  ∀ s : State, s.inputs.head? = some .hardReset →
    ∃ t : State, step s = .next t ∧ irq t = false
      ∧ t = { State.reset with inputs := s.inputs.tail, rdata := s.rdata, draws := s.draws }

/-- R242: a CTRL write with bit 0 = 1, in any state: every register 0 and no command pending, whatever bit 1 says and
whether or not a command was pending; no error; QT, BLK and OUT kept; apart from them, the block is as after hardware reset
(PEND's content, which then has no meaning, is left out). -/
def Obligations.SoftResetKeepsTheRams : Prop :=
  ∀ (s : State) (v : Word), v.getLsbD 0 = true → WritesNext s 0x004 v →
    ∃ t : State, step s = .next t
      ∧ t.irqen = false ∧ t.busy = false ∧ t.done = false ∧ t.err = false ∧ t.sat = false
      ∧ t.errcode = 0 ∧ t.qtdef = 0 ∧ t.qt = s.qt ∧ t.blk = s.blk ∧ t.out = s.out
      ∧ { t with pend := 0, qt := [], blk := [], out := [] } = { hardwareReset (turnTaken s) with pend := 0 }

/-- The invariant of the block holds after hardware reset. -/
def Obligations.InvariantHoldsAtReset : Prop := State.reset.Inv

/-- Every step keeps the invariant: canonical RAMs, CODE 0 exactly while ERR is 0 (R24), no reserved code (R205), DONE 0
while a command is pending (R63). -/
def Obligations.EveryStepKeepsTheInvariant : Prop :=
  ∀ s t : State, s.Inv → step s = .next t → t.Inv

/-! The host bus -/

/-- R21 to R26: what a legal read of a register returns, in any state; it changes nothing else (the number of draws is the
model's own). -/
def Obligations.RegisterReads : Prop :=
  ∀ s : State,
    (ReadsNext s 0x000 → step s = .next { turnTaken s with rdata := 0x1DC70007, draws := s.draws + 1 })
    ∧ (ReadsNext s 0x004 →
        step s = .next { turnTaken s with rdata := if s.irqen then 2 else 0, draws := s.draws + 1 })
    ∧ (ReadsNext s 0x008 → ∃ w : Word,
        step s = .next { turnTaken s with rdata := w, draws := s.draws + 1 }
        ∧ ∀ n, w.getLsbD n = (n == 0 && s.busy || n == 1 && s.done || n == 2 && s.err || n == 3 && s.sat))
    ∧ (ReadsNext s 0x00C → ∃ w : Word,
        step s = .next { turnTaken s with rdata := w, draws := s.draws + 1 } ∧ w.toNat = s.errcode.toNat)
    ∧ (ReadsNext s 0x010 → step s = .next { turnTaken s with rdata := 0, draws := s.draws + 1 })
    ∧ (ReadsNext s 0x014 → ∃ w : Word,
        step s = .next { turnTaken s with rdata := w, draws := s.draws + 1 } ∧ w.toNat = s.qtdef.toNat)

/-- R58: a legal read of any offset changes no state of the block, and a write that stores data (QTDEF, the windows,
CTRL.IRQEN) repeated leaves what one such write leaves. -/
def Obligations.ReadsChangeNothingAndDataWritesAreIdempotent : Prop :=
  (∀ (s : State) (off : Nat), ReadsNext s off →
    ∃ w : Word, step s = .next { turnTaken s with rdata := w, draws := s.draws + 1 })
  ∧ ∀ (s : State) (off : Nat) (w : Word),
      (off = 0x014 ∨ 0x400 ≤ off ∧ off < 0x1000 ∨ off = 0x004 ∧ w.getLsbD 0 = false) →
        writeWord off w (writeWord off w s) = writeWord off w s

/-- R22, R23, R26: a write of CTRL without a soft reset sets IRQEN; a write of STATUS clears the bits written as 1, BUSY
apart, and ERRCODE with ERR; a write of QTDEF with BUSY = 0 sets the four flags. Nothing else changes. -/
def Obligations.RegisterWrites : Prop :=
  ∀ (s : State) (v : Word),
    (WritesNext s 0x004 v → v.getLsbD 0 = false → step s = .next { turnTaken s with irqen := v.getLsbD 1 })
    ∧ (WritesNext s 0x008 v → step s = .next
        { turnTaken s with
          done := s.done && !v.getLsbD 1
          err := s.err && !v.getLsbD 2
          errcode := if v.getLsbD 2 then 0 else s.errcode
          sat := s.sat && !v.getLsbD 3 })
    ∧ (WritesNext s 0x014 v → s.busy = false → ∃ t : State, step s = .next t
        ∧ (∀ q : Fin 4, slotDefined t q = v.getLsbD q) ∧ t = { turnTaken s with qtdef := t.qtdef })

/-- R21, R24, R57, R59: a legal write of ID, ERRCODE, the OUT window or a reserved offset has no effect and records no
error, whether or not a command is pending. -/
def Obligations.WritesWithoutEffect : Prop :=
  ∀ (s : State) (off : Nat) (w : Word), WritesNext s off w →
    (off = 0x000 ∨ off = 0x00C ∨ 0x018 ≤ off ∧ off < 0x400 ∨ 0x1000 ≤ off) → step s = .next (turnTaken s)

/-- R59: reserved offsets read as 0 and ignore writes; reserved bits of the registers read as 0 and ignore writes. -/
def Obligations.ReservedOffsetsAndBits : Prop :=
  (∀ (s : State) (off : Nat) (w : Word), (0x018 ≤ off ∧ off ≤ 0x3FF ∨ 0x1400 ≤ off ∧ off ≤ 0x1FFF) →
    (ReadsNext s off → step s = .next { turnTaken s with rdata := 0, draws := s.draws + 1 })
    ∧ (WritesNext s off w → step s = .next (turnTaken s)))
  ∧ (∀ s : State, readWord 0x004 s &&& ~~~0x2 = 0 ∧ readWord 0x008 s &&& ~~~0xF = 0
      ∧ readWord 0x00C s &&& ~~~0xF = 0 ∧ readWord 0x014 s &&& ~~~0xF = 0)
  ∧ ∀ (s : State) (w : Word), writeWord 0x004 w s = writeWord 0x004 (w &&& 0x3) s
      ∧ writeWord 0x008 w s = writeWord 0x008 (w &&& 0xE) s ∧ writeWord 0x014 w s = writeWord 0x014 (w &&& 0xF) s

/-- R53: any access within the aperture that is not an aligned 32-bit access is bad, in any state: a bad write changes only
the error record, with error 6; a bad read returns 0 and records error 6 too. -/
def Obligations.BadAccessesRecordErrorSix : Prop :=
  ∀ (s : State) (off bytes : Nat), 0 < bytes → off + bytes ≤ 0x2000 → (bytes ≠ 4 ∨ off % 4 ≠ 0) →
    (∀ w : Word, s.inputs.head? = some (.write (Config.base + off) bytes w) →
      step s = .next { turnTaken s with err := true, errcode := if s.err then s.errcode else 6 })
    ∧ (s.inputs.head? = some (.read (Config.base + off) bytes) →
        step s = .next { turnTaken s with rdata := 0, err := true, errcode := if s.err then s.errcode else 6 })

/-- An access that begins in the aperture and ends outside it, or that has no bytes, is a bad access of the block like any
other. The spec describes no such access; that its first address decides is the model's choice (log 11). -/
def Obligations.StraddlingAccessesAreDecidedByTheirFirstAddress : Prop :=
  ∀ (s : State) (off bytes : Nat), off < 0x2000 → (0x2000 < off + bytes ∨ bytes = 0) →
    (∀ w : Word, s.inputs.head? = some (.write (Config.base + off) bytes w) →
      step s = .next { turnTaken s with err := true, errcode := if s.err then s.errcode else 6 })
    ∧ (s.inputs.head? = some (.read (Config.base + off) bytes) →
        step s = .next { turnTaken s with rdata := 0, err := true, errcode := if s.err then s.errcode else 6 })

/-- R55: the QT window. A write stores v[15:0] into QT[t][i] and changes no other entry and nothing else, QTDEF among it; a
read of a written entry returns it zero-extended. -/
def Obligations.QtWindow : Prop :=
  ∀ (s : State) (t i : Nat), t < 4 → i < 64 → s.busy = false →
    (∀ v : Word, WritesNext s (0x400 + 0x100 * t + 4 * i) v →
      ∃ u : State, step s = .next u ∧ u = { turnTaken s with qt := u.qt }
        ∧ (∃ e, qtEntry u t i = some e ∧ e.toNat = v.toNat % 2 ^ 16)
        ∧ ∀ k, k ≠ 64 * t + i → Memory.read u.qt k = Memory.read s.qt k)
    ∧ ∀ e : Entry, qtEntry s t i = some e → ReadsNext s (0x400 + 0x100 * t + 4 * i) →
        ∃ w : Word, step s = .next { turnTaken s with rdata := w, draws := s.draws + 1 } ∧ w.toNat = e.toNat

/-- R56: the BLK window. A write stores v[15:0] into BLK[b][i] and changes no other entry and nothing else; a read of a
written entry returns it sign-extended. -/
def Obligations.BlkWindow : Prop :=
  ∀ (s : State) (b i : Nat), b < 8 → i < 64 → s.busy = false →
    (∀ v : Word, WritesNext s (0x800 + 0x100 * b + 4 * i) v →
      ∃ u : State, step s = .next u ∧ u = { turnTaken s with blk := u.blk }
        ∧ (∃ e, blkEntry u b i = some e ∧ e.toNat = v.toNat % 2 ^ 16)
        ∧ ∀ k, k ≠ 64 * b + i → Memory.read u.blk k = Memory.read s.blk k)
    ∧ ∀ e : Entry, blkEntry s b i = some e → ReadsNext s (0x800 + 0x100 * b + 4 * i) →
        ∃ w : Word, step s = .next { turnTaken s with rdata := w, draws := s.draws + 1 } ∧ w.toInt = e.toInt

/-- R54, R57: the OUT window. A read of a written pixel returns a word whose byte lanes are R, G, B and 0 from the lowest
address up; a write has no effect and records no error. -/
def Obligations.OutWindow : Prop :=
  ∀ (s : State) (o i : Nat), o < 4 → i < 64 →
    (∀ p : Pixel, s.busy = false → outPixel s o i = some p → ReadsNext s (0x1000 + 0x100 * o + 4 * i) →
      ∃ w : Word, step s = .next { turnTaken s with rdata := w, draws := s.draws + 1 }
        ∧ byteLane 0 w = p.r ∧ byteLane 1 w = p.g ∧ byteLane 2 w = p.b ∧ byteLane 3 w = 0)
    ∧ ∀ v : Word, WritesNext s (0x1000 + 0x100 * o + 4 * i) v → step s = .next (turnTaken s)

/-- R60: while BUSY = 1 a write of the QT or BLK window or QTDEF is discarded and records error 5; a window read returns a
free word and records no error; a read of ID, CTRL, ERRCODE, QTDEF or a reserved offset is as with BUSY = 0. -/
def Obligations.AccessesWhileBusy : Prop :=
  ∀ (s : State) (off : Nat), s.busy = true →
    (∀ w : Word, WritesNext s off w → (off = 0x014 ∨ 0x400 ≤ off ∧ off < 0x1000) →
      step s = .next { turnTaken s with err := true, errcode := if s.err then s.errcode else 5 })
    ∧ (ReadsNext s off → 0x400 ≤ off ∧ off < 0x1400 →
        step s = .next { turnTaken s with rdata := Config.freeWord s.draws, draws := s.draws + 1 })
    ∧ (off < 0x400 ∧ off ≠ 0x008 ∨ 0x1400 ≤ off → readWord off s = readWord off { s with busy := false })

/-- D30: with BUSY = 0 a read of an entry never written since hardware reset returns a free value of the entry's width, in
the word's form of R55 to R57, and records no error; nothing is said of the value. That the width is the entry's is the
model's choice (log 6). -/
def Obligations.UnwrittenEntriesReadAsFreeValues : Prop :=
  ∀ (s : State) (b i : Nat), i < 64 → s.busy = false →
    (b < 4 → qtEntry s b i = none → ReadsNext s (0x400 + 0x100 * b + 4 * i) → ∃ (e : Entry) (w : Word),
      step s = .next { turnTaken s with rdata := w, draws := s.draws + 1 } ∧ w.toNat = e.toNat
        ∧ e = Config.freeEntry s.draws 0)
    ∧ (b < 8 → blkEntry s b i = none → ReadsNext s (0x800 + 0x100 * b + 4 * i) → ∃ (e : Entry) (w : Word),
        step s = .next { turnTaken s with rdata := w, draws := s.draws + 1 } ∧ w.toInt = e.toInt
          ∧ e = Config.freeEntry s.draws 0)
    ∧ (b < 4 → outPixel s b i = none → ReadsNext s (0x1000 + 0x100 * b + 4 * i) → ∃ w : Word,
        step s = .next { turnTaken s with rdata := w, draws := s.draws + 1 } ∧ byteLane 3 w = 0)

/-- R31, R210: IRQ is IRQEN and (DONE or ERR), whatever SAT and BUSY are; it is 0 after reset; a write of 0x6 to STATUS
drops it. -/
def Obligations.InterruptIsDoneOrErrWhileEnabled : Prop :=
  (∀ s : State, irq s = true ↔ s.irqen = true ∧ (s.done = true ∨ s.err = true))
  ∧ irq State.reset = false ∧ (∀ s : State, irq (hardwareReset s) = false ∧ irq (softReset s) = false)
  ∧ ∀ s : State, WritesNext s 0x008 0x6 → ∃ t : State, step s = .next t ∧ irq t = false

/-! Who writes what -/

/-- R103: QT changes only by a hardware reset or by a write of the QT window while BUSY = 0, and no engine step changes QT or
QTDEF. -/
def Obligations.TablesAreWrittenByTheHostOnly : Prop :=
  (∀ s t : State, step s = .next t → t.qt ≠ s.qt →
    s.inputs.head? = some .hardReset
      ∨ s.busy = false ∧ ∃ off w, 0x400 ≤ off ∧ off < 0x800 ∧ WritesNext s off w)
  ∧ ∀ s t : State, step s = .next t → EngineNext s = true → t.qt = s.qt ∧ t.qtdef = s.qtdef

/-- R30: OUT changes only by a hardware reset or by the engine step of a CCONV or GRAY, which changes only the pixels of its
RO. -/
def Obligations.OutIsWrittenByColourCommandsOnly : Prop :=
  ∀ s t : State, step s = .next t → t.out ≠ s.out →
    s.inputs.head? = some .hardReset
    ∨ EngineNext s = true ∧ ∃ ro : Fin 4,
        ((∃ ry rcb rcr h v hs vs, decode s.pend = .ok (.cconv ry rcb rcr ro h v hs vs))
          ∨ ∃ ry, decode s.pend = .ok (.gray ry ro))
        ∧ ∀ k, (k < 64 * ro.val ∨ 64 * ro.val + 64 ≤ k) → Memory.read t.out k = Memory.read s.out k

/-- R29: BLK changes only by a hardware reset, by a write of the BLK window while BUSY = 0, or by the engine step of a DEQ,
IDCT, CLR or DQI, which changes only the entries of its RD. -/
def Obligations.BlockBuffersAreWrittenByTheirCommandsOnly : Prop :=
  ∀ s t : State, step s = .next t → t.blk ≠ s.blk →
    s.inputs.head? = some .hardReset
    ∨ (s.busy = false ∧ ∃ off w, 0x800 ≤ off ∧ off < 0x1000 ∧ WritesNext s off w)
    ∨ EngineNext s = true ∧ ∃ rd : Fin 8,
        ((∃ rs qt, decode s.pend = .ok (.deq rd rs qt)) ∨ (∃ rs, decode s.pend = .ok (.idct rd rs))
          ∨ decode s.pend = .ok (.clr rd) ∨ ∃ rs qt, decode s.pend = .ok (.dqi rd rs qt))
        ∧ ∀ k, (k < 64 * rd.val ∨ 64 * rd.val + 64 ≤ k) → Memory.read t.blk k = Memory.read s.blk k

/-- R23: SAT is sticky: only a reset or a STATUS write with bit 3 = 1 clears it, and only the engine step of a DEQ, IDCT or
DQI sets it. -/
def Obligations.SatIsSticky : Prop :=
  (∀ s t : State, step s = .next t → s.sat = true → t.sat = false →
    ResetNext s ∨ ∃ v : Word, v.getLsbD 3 = true ∧ WritesNext s 0x008 v)
  ∧ ∀ s t : State, step s = .next t → s.sat = false → t.sat = true →
      EngineNext s = true ∧ ((∃ rd rs qt, decode s.pend = .ok (.deq rd rs qt))
        ∨ (∃ rd rs, decode s.pend = .ok (.idct rd rs)) ∨ ∃ rd rs qt, decode s.pend = .ok (.dqi rd rs qt))

/-! The commands: result, flags and frame, where each completes -/

/-- Every command completes, whatever QT, BLK and OUT hold and whether or not their entries were ever written, wherever its
own check passes: DONE is set, no error is recorded, and it changes only what its rule names. That it completes on entries
never written, and the number of draws, are the model's choice (log 5, log 7). -/
def Obligations.EveryCommandCompletesWhereItsCheckPasses : Prop :=
  ∀ (i : Instr) (s : State), Runs i s →
    ∃ t : State, exec i s = .next t ∧
      match i with
      | .nop => t = { s with done := true }
      | .deq rd _ _ | .idct rd _ | .dqi rd _ _ =>
        t = { s with done := true, sat := t.sat, blk := t.blk, draws := s.draws + 1 }
          ∧ (s.sat = true → t.sat = true)
          ∧ ∀ k, (k < 64 * rd.val ∨ 64 * rd.val + 64 ≤ k) → Memory.read t.blk k = Memory.read s.blk k
      | .cconv _ _ _ ro _ _ _ _ | .gray _ ro =>
        t = { s with done := true, out := t.out, draws := s.draws + 1 }
          ∧ ∀ k, (k < 64 * ro.val ∨ 64 * ro.val + 64 ≤ k) → Memory.read t.out k = Memory.read s.out k
      | .clr rd =>
        t = { s with done := true, blk := t.blk }
          ∧ ∀ k, (k < 64 * rd.val ∨ 64 * rd.val + 64 ≤ k) → Memory.read t.blk k = Memory.read s.blk k

/-- R180: NOP sets DONE and changes nothing else. -/
def Obligations.NopOnlySetsDone : Prop :=
  ∀ s : State, exec .nop s = .next { s with done := true }

/-- R181: CLR writes 0 to every entry of RD, sets DONE and changes nothing else. -/
def Obligations.ClrZeroesTheBlock : Prop :=
  ∀ (s : State) (rd : Fin 8), ∃ t : State, exec (.clr rd) s = .next t
    ∧ (∀ i < 64, coef t rd i = some 0)
    ∧ (∀ k, (k < 64 * rd.val ∨ 64 * rd.val + 64 ≤ k) → Memory.read t.blk k = Memory.read s.blk k)
    ∧ t = { s with blk := t.blk, done := true }

/-- R100, R101: DEQ on a defined slot, whatever is written: with x and q the values its reads found (D30: an entry's own
where it is written), the saturated products, SAT when one overflows, DONE, and nothing else (the number of draws is the
model's own). RD = RS is included. That results on entries never written are computed from the values read is the
model's reading of D30 (log 5). -/
def Obligations.DeqDequantizesTheBlock : Prop :=
  ∀ (s : State) (rd rs : Fin 8) (qt : Fin 4), slotDefined s qt = true →
    ∃ (x q : Nat → Int) (t : State), BlkReads s rs (fun i => i) x ∧ QtReads s qt q
      ∧ exec (.deq rd rs qt) s = .next t
      ∧ (∀ i < 64, coef t rd i = some (min 32767 (max (-32768) (x i * q i))))
      ∧ (∀ i < 64, -2 ^ 31 ≤ x i * q i ∧ x i * q i < 2 ^ 31)
      ∧ (t.sat = true ↔ s.sat = true ∨ ∃ i < 64, x i * q i > 32767 ∨ x i * q i < -32768)
      ∧ (∀ k, (k < 64 * rd.val ∨ 64 * rd.val + 64 ≤ k) → Memory.read t.blk k = Memory.read s.blk k)
      ∧ t = { s with blk := t.blk, sat := t.sat, done := true, draws := s.draws + 1 }

/-- DEQ entry by entry, whatever the others hold (R101, D30, D33): an entry whose operands are written is exact, and its
overflow sets SAT; an entry with a written operand of 0 is 0, whatever the other operand's read finds; a table written
with 0s and 1s alone sets no SAT, whatever the coefficients' reads find. That results on entries never written are
computed from the values read is the model's reading of D30 (log 5). -/
def Obligations.DeqIsExactWhereUnwrittenEntriesCannotMatter : Prop :=
  ∀ (s : State) (rd rs : Fin 8) (qt : Fin 4), slotDefined s qt = true →
    ∃ t : State, exec (.deq rd rs qt) s = .next t
      ∧ (∀ i < 64, ∀ x q : Entry, blkEntry s rs i = some x → qtEntry s qt i = some q →
          coef t rd i = some (sat16 (x.toInt * q.toNat)) ∧ (ovf16 (x.toInt * q.toNat) = true → t.sat = true))
      ∧ (∀ i < 64, (qtEntry s qt i = some 0 ∨ blkEntry s rs i = some 0) → blkEntry t rd i = some 0)
      ∧ ((∀ i < 64, qtEntry s qt i = some 0 ∨ qtEntry s qt i = some 1) → t.sat = s.sat)

/-- R101: a table of all ones leaves every written entry of a block unchanged and sets no SAT, in place or not. That
results on entries never written are computed from the values read is the model's reading of D30 (log 5). -/
def Obligations.DeqByOnesCopiesTheBlock : Prop :=
  ∀ (s : State) (rd rs : Fin 8) (qt : Fin 4), slotDefined s qt = true → (∀ i < 64, qtEntry s qt i = some 1) →
    ∃ t : State, exec (.deq rd rs qt) s = .next t ∧ t.sat = s.sat
      ∧ ∀ i < 64, ∀ e : Entry, blkEntry s rs i = some e → blkEntry t rd i = some e

/-- R120, R121: the pass is the flow graph, stage by stage, with its constants and its rounding. -/
def Obligations.PassIsTheFlowGraph : Prop :=
  ∀ a : Nat → Int,
    let m : Int → Int → Int := fun x k => (x * k + 8192) / 16384
    let g0 := m (a 0) 5793
    let g1 := m (a 4) 5793
    let g2 := m (a 2) 7568
    let g3 := m (a 6) 3135
    let g4 := m (a 5) 4551
    let g5 := m (a 1) 8035
    let g6 := m (a 7) 1598
    let g7 := m (a 3) 6811
    let d4 := m (g4 - g7) 17734
    let d5 := m (g5 + g6 - (g4 + g7)) 23170
    let d6 := m (g5 - g6) 42813
    let d7 := g5 + g6 + (g4 + g7)
    let d8 := m (g4 - g7 + (g5 - g6)) 12540
    let c2 := m (g2 - g3) 23170 - (g2 + g3)
    let c8 := d5 + d7 - (d6 - d8)
    let b0 := g0 + g1 + (g2 + g3)
    let b1 := g0 - g1 + c2
    let b2 := g0 - g1 - c2
    let b3 := g0 + g1 - (g2 + g3)
    let b4 := d4 + d8 - c8
    let b6 := d6 - d8 - d7
    idctPass a 0 = b0 + d7 ∧ idctPass a 1 = b1 + b6 ∧ idctPass a 2 = b2 + c8 ∧ idctPass a 3 = b3 + b4
      ∧ idctPass a 4 = b3 - b4 ∧ idctPass a 5 = b2 - c8 ∧ idctPass a 6 = b1 - b6 ∧ idctPass a 7 = b0 - d7

/-- R122, R133, R134: IDCT of any block, with x the values its reads found (D30: an entry's own where it is written):
the rounded row-pass values saturated, SAT when one overflows, DONE, and nothing else (the number of draws is the
model's own). RD = RS is included. That results on entries never written are computed from the values read is the
model's reading of D30 (log 5). -/
def Obligations.IdctTransformsTheBlock : Prop :=
  ∀ (s : State) (rd rs : Fin 8),
    ∃ (x : Nat → Int) (t : State), BlkReads s rs (fun i => i) x ∧ exec (.idct rd rs) s = .next t
      ∧ (∀ i < 64, coef t rd i = some (min 32767 (max (-32768)
          ((idctPass (fun k => idctPass (fun j => x (8 * j + k) * 256) (i / 8)) (i % 8) + 128) / 256))))
      ∧ (t.sat = true ↔ s.sat = true ∨ ∃ i < 64,
          (idctPass (fun k => idctPass (fun j => x (8 * j + k) * 256) (i / 8)) (i % 8) + 128) / 256 > 32767
          ∨ (idctPass (fun k => idctPass (fun j => x (8 * j + k) * 256) (i / 8)) (i % 8) + 128) / 256 < -32768)
      ∧ (∀ k, (k < 64 * rd.val ∨ 64 * rd.val + 64 ≤ k) → Memory.read t.blk k = Memory.read s.blk k)
      ∧ t = { s with blk := t.blk, sat := t.sat, done := true, draws := s.draws + 1 }

/-- R133: a block whose only nonzero coefficient is x[0] gives sixty-four equal samples; an all-zero block gives an all-zero
block. -/
def Obligations.IdctOfADcOnlyBlockIsFlat : Prop :=
  (∀ (x : Nat → Int) (i : Nat), (∀ k < 64, k ≠ 0 → x k = 0) → i < 64 →
    idctRounded x i = (mulK (mulK (x 0 * 256) 5793) 5793 + 128) / 256)
  ∧ ∀ (x : Nat → Int) (i : Nat), (∀ k < 64, x k = 0) → i < 64 → idct2 x i = 0

/-- R136: the IDCT command's samples, and whether it sets SAT, depend on its source block alone. -/
def Obligations.IdctReadsItsSourceOnly : Prop :=
  ∀ (s s' t t' : State) (rd rd' rs rs' : Fin 8), BlkWritten s rs →
    (∀ i < 64, blkEntry s rs i = blkEntry s' rs' i) →
    exec (.idct rd rs) s = .next t → exec (.idct rd' rs') s' = .next t' →
      (∀ i < 64, blkEntry t rd i = blkEntry t' rd' i) ∧ (s.sat = s'.sat → t.sat = t'.sat)

/-- R138: for every block of 16-bit coefficients, every value of both passes and the rounded value lie within the datapath's
widths, so hardware of those widths computes the unbounded result. -/
def Obligations.IdctFitsTheDatapath : Prop :=
  ∀ x : Nat → Int, (∀ i < 64, fitsSigned 16 (x i)) →
    (∀ i < 8, (∀ k < 8, fitsSigned 24 (x (8 * k + i) * 2 ^ 8)) ∧ PassFits 27 28 39 (fun k => x (8 * k + i) * 2 ^ 8))
    ∧ (∀ r < 8, PassFits 30 31 42 (fun k => columnPass x (8 * r + k)))
    ∧ ∀ i < 64, fitsSigned 23 (idctRounded x i)

/-- R135: DQI on a defined slot, whatever is written, with x and q the values its reads found (D30: an entry's own where
it is written): the inverse DCT of the saturated products, SAT when either overflows, DONE, and nothing else (the number
of draws is the model's own). That results on entries never written are computed from the values read is the model's
reading of D30 (log 5). -/
def Obligations.DqiDequantizesAndTransforms : Prop :=
  ∀ (s : State) (rd rs : Fin 8) (qt : Fin 4), slotDefined s qt = true →
    ∃ (x q : Nat → Int) (t : State), BlkReads s rs (fun i => i) x ∧ QtReads s qt q
      ∧ exec (.dqi rd rs qt) s = .next t
      ∧ (∀ i < 64, coef t rd i = some (sat16 (idctRounded (fun k => sat16 (x k * q k)) i)))
      ∧ (t.sat = true ↔ s.sat = true ∨ (∃ i < 64, ovf16 (x i * q i) = true)
          ∨ ∃ i < 64, ovf16 (idctRounded (fun k => sat16 (x k * q k)) i) = true)
      ∧ (∀ k, (k < 64 * rd.val ∨ 64 * rd.val + 64 ≤ k) → Memory.read t.blk k = Memory.read s.blk k)
      ∧ t = { s with blk := t.blk, sat := t.sat, done := true, draws := s.draws + 1 }

/-- R135: DQI gives exactly what DEQ into any buffer followed by IDCT from it gives, the intermediate buffer apart. -/
def Obligations.DqiIsDeqThenIdct : Prop :=
  ∀ (s : State) (rd rs rx : Fin 8) (qt : Fin 4), slotDefined s qt = true → BlkWritten s rs → QtWritten s qt →
    ∃ t1 t2 t3 : State, exec (.deq rx rs qt) s = .next t1 ∧ exec (.idct rd rx) t1 = .next t2
      ∧ exec (.dqi rd rs qt) s = .next t3
      ∧ (∀ i < 64, blkEntry t2 rd i = blkEntry t3 rd i) ∧ t2.sat = t3.sat
      ∧ ∀ k, (k < 64 * rd.val ∨ 64 * rd.val + 64 ≤ k) → (k < 64 * rx.val ∨ 64 * rx.val + 64 ≤ k) →
          Memory.read t2.blk k = Memory.read t3.blk k

/-- R152 to R154: CCONV with offsets below their factors, whatever is written: with y, cb and cr the values its reads
for each pixel found (D30: an entry's own where it is written), every pixel is the colour matrix of its luma sample and
the chroma samples of its chroma index, each channel of the samples it needs alone; DONE, SAT unchanged, and nothing
else (the number of draws is the model's own). The three sources may be one buffer. That results on entries never
written are computed from the values read is the model's reading of D30 (log 5). -/
def Obligations.CconvConvertsTheSubBlock : Prop :=
  ∀ (s : State) (ry rcb rcr : Fin 8) (ro : Fin 4) (h v hs vs : Fin 2), h.val < 1 + hs.val → v.val < 1 + vs.val →
    let c : Nat → Nat := fun i => 8 * (i / 8 / (1 + vs.val) + 4 * v.val) + (i % 8 / (1 + hs.val) + 4 * h.val)
    ∃ (y cb cr : Nat → Int) (t : State), BlkReads s ry (fun i => i) y ∧ BlkReads s rcb c cb ∧ BlkReads s rcr c cr
      ∧ exec (.cconv ry rcb rcr ro h v hs vs) s = .next t
      ∧ (∀ i < 64, ∃ p : Pixel, outPixel t ro i = some p
          ∧ (p.r.toNat : Int) = clamp8 (y i + 128 + (22970 * cr i + 8192) / 16384)
          ∧ (p.g.toNat : Int) = clamp8 (y i + 128 + (-(5636 * cb i) - 11698 * cr i + 8192) / 16384)
          ∧ (p.b.toNat : Int) = clamp8 (y i + 128 + (29032 * cb i + 8192) / 16384))
      ∧ (∀ k, (k < 64 * ro.val ∨ 64 * ro.val + 64 ≤ k) → Memory.read t.out k = Memory.read s.out k)
      ∧ t = { s with out := t.out, done := true, draws := s.draws + 1 }

/-- R154: for legal offsets the chroma index lies in the block; at 1x1 it is the luma index; a factor of 2 makes two
adjacent luma columns or rows share a chroma one, in the half the offset names. -/
def Obligations.ChromaIndexFollowsTheSampling : Prop :=
  ∀ (h v hs vs : Fin 2) (x y : Nat), x < 8 → y < 8 → offsetsLegal h v hs vs = true →
    chromaIndex h v hs vs x y < 64
    ∧ (hs = 0 → vs = 0 → chromaIndex h v hs vs x y = 8 * y + x)
    ∧ (hs = 1 → chromaIndex h v hs vs x y % 8 = x / 2 + 4 * h.val)
    ∧ (vs = 1 → chromaIndex h v hs vs x y / 8 = y / 2 + 4 * v.val)

/-- R155: GRAY of any block, with y the values its reads found (D30: an entry's own where it is written): the clamped
level-shifted luma in all three channels, DONE, SAT unchanged, and nothing else (the number of draws is the model's
own). That results on entries never written are computed from the values read is the model's reading of D30 (log 5). -/
def Obligations.GrayRepeatsTheLuma : Prop :=
  ∀ (s : State) (ry : Fin 8) (ro : Fin 4),
    ∃ (y : Nat → Int) (t : State), BlkReads s ry (fun i => i) y ∧ exec (.gray ry ro) s = .next t
      ∧ (∀ i < 64, ∃ p : Pixel, outPixel t ro i = some p ∧ (p.r.toNat : Int) = clamp8 (y i + 128)
          ∧ p.g = p.r ∧ p.b = p.r)
      ∧ (∀ k, (k < 64 * ro.val ∨ 64 * ro.val + 64 ≤ k) → Memory.read t.out k = Memory.read s.out k)
      ∧ t = { s with out := t.out, done := true, draws := s.draws + 1 }

/-- R155: GRAY gives exactly what a 1x1 CCONV gives with a zero block as Cb and Cr, whatever the luma block holds (on luma
never written this is the model's reading, log 5). -/
def Obligations.GrayIsCconvWithZeroChroma : Prop :=
  ∀ (s : State) (ry rz : Fin 8) (ro : Fin 4), (∀ i < 64, blkEntry s rz i = some 0) →
    ∃ t : State, exec (.gray ry ro) s = .next t ∧ exec (.cconv ry rz rz ro 0 0 0 0) s = .next t

/-- R156: the sub-blocks of an MCU may be converted in any order: two CCONVs into different output buffers, in either order,
leave the same pixels and the same everything else, where every entry they read is written. -/
def Obligations.CconvOrderDoesNotMatter : Prop :=
  ∀ (s : State) (ry ry' rcb rcr : Fin 8) (ro ro' : Fin 4) (h v h' v' hs vs : Fin 2), ro ≠ ro' →
    offsetsLegal h v hs vs = true → offsetsLegal h' v' hs vs = true →
    BlkWritten s ry → BlkWritten s ry' →
    ChromaWritten s rcb h v hs vs → ChromaWritten s rcb h' v' hs vs →
    ChromaWritten s rcr h v hs vs → ChromaWritten s rcr h' v' hs vs →
    ∃ a b a' b' : State,
      exec (.cconv ry rcb rcr ro h v hs vs) s = .next a ∧ exec (.cconv ry' rcb rcr ro' h' v' hs vs) a = .next b
      ∧ exec (.cconv ry' rcb rcr ro' h' v' hs vs) s = .next a' ∧ exec (.cconv ry rcb rcr ro h v hs vs) a' = .next b'
      ∧ (∀ k, Memory.read b.out k = Memory.read b'.out k) ∧ b = { b' with out := b.out }
end

