-- ==== Sys2Proof/Laws/Memory.lean ====
section
/-! SUPPORT. The laws of a RAM: a read after a write, and that every write keeps the canonical form. -/

namespace Sys2Proof.Machine

theorem Memory.read_write {α : Type} (m : Memory α) (k j : Nat) (v : α) :
    Memory.read (Memory.write m k v) j = if j = k then some v else Memory.read m j := by
  induction m with
  | nil => simp [Memory.write, Memory.read, eq_comm]
  | cons p m ih =>
    obtain ⟨a, w⟩ := p
    unfold Memory.write
    split
    · simp [Memory.read, eq_comm]
    · split
      · subst a
        by_cases hkj : k = j
        · simp [Memory.read, hkj]
        · have hjk : ¬j = k := fun e => hkj e.symm
          simp [Memory.read, hkj, hjk]
      · rename_i _ hka
        simp only [Memory.read, ih]
        by_cases haj : a = j
        · have hjk : j ≠ k := fun e => hka (by omega)
          simp [haj, hjk]
        · simp [haj]

@[simp] theorem Memory.read_write_same {α : Type} (m : Memory α) (k : Nat) (v : α) :
    Memory.read (Memory.write m k v) k = some v := by
  simp [Memory.read_write]

theorem Memory.read_write_other {α : Type} (m : Memory α) {k j : Nat} (v : α) (h : j ≠ k) :
    Memory.read (Memory.write m k v) j = Memory.read m j := by
  simp [Memory.read_write, h]

/-- Writing the same entry twice is writing it once. -/
theorem Memory.write_write {α : Type} (m : Memory α) (k : Nat) (v : α) :
    Memory.write (Memory.write m k v) k v = Memory.write m k v := by
  induction m with
  | nil => simp [Memory.write]
  | cons p m ih =>
    obtain ⟨a, w⟩ := p
    by_cases h1 : k < a
    · simp [Memory.write, h1]
    · by_cases h2 : k = a
      · simp [Memory.write, h2]
      · simp [Memory.write, h1, h2, ih]

/-- A block write gives entry `k + i` the `i`-th value and leaves every other entry. -/
theorem Memory.read_writeFrom {α : Type} (vs : List α) (m : Memory α) (k j : Nat) :
    Memory.read (Memory.writeFrom m k vs) j =
      if k ≤ j ∧ j < k + vs.length then vs[j - k]? else Memory.read m j := by
  induction vs generalizing m k with
  | nil =>
    simp [Memory.writeFrom]
  | cons v vs ih =>
    simp only [Memory.writeFrom, ih, List.length_cons]
    by_cases hj : j = k
    · subst hj
      simp
    · by_cases hin : k + 1 ≤ j ∧ j < k + 1 + vs.length
      · have h2 : k ≤ j ∧ j < k + (vs.length + 1) := by omega
        obtain ⟨d, hd⟩ : ∃ d, j - k = d + 1 := ⟨j - k - 1, by omega⟩
        have hd' : j - (k + 1) = d := by omega
        rw [if_pos hin, if_pos h2, hd, hd', List.getElem?_cons_succ]
      · have h2 : ¬(k ≤ j ∧ j < k + (vs.length + 1)) := by omega
        rw [if_neg hin, if_neg h2, Memory.read_write_other _ _ hj]

theorem Memory.wfFrom_mono {α : Type} {lo lo' hi : Nat} (m : Memory α) (h : lo ≤ lo') :
    Memory.wfFrom lo' hi m = true → Memory.wfFrom lo hi m = true := by
  cases m with
  | nil => simp [Memory.wfFrom]
  | cons p m =>
    obtain ⟨a, w⟩ := p
    simp only [Memory.wfFrom, Bool.and_eq_true, decide_eq_true_eq]
    rintro ⟨⟨h1, h2⟩, h3⟩
    exact ⟨⟨by omega, h2⟩, h3⟩

theorem Memory.wfFrom_write {α : Type} {lo hi k : Nat} (m : Memory α) (v : α) (hk : lo ≤ k) (hk' : k < hi)
    (h : Memory.wfFrom lo hi m = true) : Memory.wfFrom lo hi (Memory.write m k v) = true := by
  induction m generalizing lo with
  | nil => simp [Memory.write, Memory.wfFrom, hk, hk']
  | cons p m ih =>
    obtain ⟨a, w⟩ := p
    simp only [Memory.wfFrom, Bool.and_eq_true, decide_eq_true_eq] at h
    obtain ⟨⟨h1, h2⟩, h3⟩ := h
    unfold Memory.write
    split
    · simp only [Memory.wfFrom, Bool.and_eq_true, decide_eq_true_eq]
      exact ⟨⟨hk, hk'⟩, ⟨by omega, h2⟩, h3⟩
    · split
      · subst k
        simp only [Memory.wfFrom, Bool.and_eq_true, decide_eq_true_eq]
        exact ⟨⟨h1, h2⟩, h3⟩
      · simp only [Memory.wfFrom, Bool.and_eq_true, decide_eq_true_eq]
        exact ⟨⟨h1, h2⟩, ih (by omega) h3⟩

/-- A write of a key the RAM has keeps its canonical form. -/
theorem Memory.wf_write {α : Type} {size k : Nat} (m : Memory α) (v : α) (hk : k < size)
    (h : Memory.wf size m = true) : Memory.wf size (Memory.write m k v) = true :=
  Memory.wfFrom_write m v (Nat.zero_le k) hk h

/-- A block write of keys the RAM has keeps its canonical form. -/
theorem Memory.wf_writeFrom {α : Type} {size : Nat} (vs : List α) (m : Memory α) (k : Nat)
    (hk : k + vs.length ≤ size) (h : Memory.wf size m = true) : Memory.wf size (Memory.writeFrom m k vs) = true := by
  induction vs generalizing m k with
  | nil => simpa [Memory.writeFrom] using h
  | cons v vs ih =>
    simp only [List.length_cons] at hk
    exact ih _ _ (by omega) (Memory.wf_write m v (by omega) h)

theorem Memory.wf_nil {α : Type} (size : Nat) : Memory.wf size ([] : Memory α) = true := rfl

@[simp] theorem entries_length {α : Type} (g : Nat → α) : (entries g).length = 64 := by
  simp [entries, Config.nElem]

theorem entries_getElem? {α : Type} (g : Nat → α) {i : Nat} (h : i < 64) : (entries g)[i]? = some (g i) := by
  simp [entries, Config.nElem, h]

/-- A block's stored values are those at its sixty-four indices. -/
theorem entries_congr {α : Type} {g h : Nat → α} (e : ∀ i < 64, g i = h i) : entries g = entries h := by
  unfold entries
  exact List.map_congr_left fun i hi => e i (by simpa [Config.nElem] using hi)

end Sys2Proof.Machine
end

