-- ==== Sys2Proof/Laws/State.lean ====
section
/-! SUPPORT. One lemma per field of State per update: what each shared operation makes of the field. -/

namespace Sys2Proof.Machine

/-! storeBlk -/

@[simp] theorem storeBlk_irqen (b : Fin 8) (g : Nat → Entry) (s : State) : (storeBlk b g s).irqen = s.irqen := rfl
@[simp] theorem storeBlk_busy (b : Fin 8) (g : Nat → Entry) (s : State) : (storeBlk b g s).busy = s.busy := rfl
@[simp] theorem storeBlk_done (b : Fin 8) (g : Nat → Entry) (s : State) : (storeBlk b g s).done = s.done := rfl
@[simp] theorem storeBlk_err (b : Fin 8) (g : Nat → Entry) (s : State) : (storeBlk b g s).err = s.err := rfl
@[simp] theorem storeBlk_sat (b : Fin 8) (g : Nat → Entry) (s : State) : (storeBlk b g s).sat = s.sat := rfl
@[simp] theorem storeBlk_errcode (b : Fin 8) (g : Nat → Entry) (s : State) : (storeBlk b g s).errcode = s.errcode := rfl
@[simp] theorem storeBlk_qtdef (b : Fin 8) (g : Nat → Entry) (s : State) : (storeBlk b g s).qtdef = s.qtdef := rfl
@[simp] theorem storeBlk_pend (b : Fin 8) (g : Nat → Entry) (s : State) : (storeBlk b g s).pend = s.pend := rfl
@[simp] theorem storeBlk_qt (b : Fin 8) (g : Nat → Entry) (s : State) : (storeBlk b g s).qt = s.qt := rfl
@[simp] theorem storeBlk_blk (b : Fin 8) (g : Nat → Entry) (s : State) : (storeBlk b g s).blk = (Memory.writeFrom s.blk (entryKey b 0) (entries g)) := rfl
@[simp] theorem storeBlk_out (b : Fin 8) (g : Nat → Entry) (s : State) : (storeBlk b g s).out = s.out := rfl
@[simp] theorem storeBlk_inputs (b : Fin 8) (g : Nat → Entry) (s : State) : (storeBlk b g s).inputs = s.inputs := rfl
@[simp] theorem storeBlk_rdata (b : Fin 8) (g : Nat → Entry) (s : State) : (storeBlk b g s).rdata = s.rdata := rfl
@[simp] theorem storeBlk_draws (b : Fin 8) (g : Nat → Entry) (s : State) : (storeBlk b g s).draws = s.draws := rfl

/-! storeOut -/

@[simp] theorem storeOut_irqen (o : Fin 4) (g : Nat → Pixel) (s : State) : (storeOut o g s).irqen = s.irqen := rfl
@[simp] theorem storeOut_busy (o : Fin 4) (g : Nat → Pixel) (s : State) : (storeOut o g s).busy = s.busy := rfl
@[simp] theorem storeOut_done (o : Fin 4) (g : Nat → Pixel) (s : State) : (storeOut o g s).done = s.done := rfl
@[simp] theorem storeOut_err (o : Fin 4) (g : Nat → Pixel) (s : State) : (storeOut o g s).err = s.err := rfl
@[simp] theorem storeOut_sat (o : Fin 4) (g : Nat → Pixel) (s : State) : (storeOut o g s).sat = s.sat := rfl
@[simp] theorem storeOut_errcode (o : Fin 4) (g : Nat → Pixel) (s : State) : (storeOut o g s).errcode = s.errcode := rfl
@[simp] theorem storeOut_qtdef (o : Fin 4) (g : Nat → Pixel) (s : State) : (storeOut o g s).qtdef = s.qtdef := rfl
@[simp] theorem storeOut_pend (o : Fin 4) (g : Nat → Pixel) (s : State) : (storeOut o g s).pend = s.pend := rfl
@[simp] theorem storeOut_qt (o : Fin 4) (g : Nat → Pixel) (s : State) : (storeOut o g s).qt = s.qt := rfl
@[simp] theorem storeOut_blk (o : Fin 4) (g : Nat → Pixel) (s : State) : (storeOut o g s).blk = s.blk := rfl
@[simp] theorem storeOut_out (o : Fin 4) (g : Nat → Pixel) (s : State) : (storeOut o g s).out = (Memory.writeFrom s.out (entryKey o 0) (entries g)) := rfl
@[simp] theorem storeOut_inputs (o : Fin 4) (g : Nat → Pixel) (s : State) : (storeOut o g s).inputs = s.inputs := rfl
@[simp] theorem storeOut_rdata (o : Fin 4) (g : Nat → Pixel) (s : State) : (storeOut o g s).rdata = s.rdata := rfl
@[simp] theorem storeOut_draws (o : Fin 4) (g : Nat → Pixel) (s : State) : (storeOut o g s).draws = s.draws := rfl

/-! writeBlkEntry -/

@[simp] theorem writeBlkEntry_irqen (b i : Nat) (v : Entry) (s : State) : (writeBlkEntry b i v s).irqen = s.irqen := rfl
@[simp] theorem writeBlkEntry_busy (b i : Nat) (v : Entry) (s : State) : (writeBlkEntry b i v s).busy = s.busy := rfl
@[simp] theorem writeBlkEntry_done (b i : Nat) (v : Entry) (s : State) : (writeBlkEntry b i v s).done = s.done := rfl
@[simp] theorem writeBlkEntry_err (b i : Nat) (v : Entry) (s : State) : (writeBlkEntry b i v s).err = s.err := rfl
@[simp] theorem writeBlkEntry_sat (b i : Nat) (v : Entry) (s : State) : (writeBlkEntry b i v s).sat = s.sat := rfl
@[simp] theorem writeBlkEntry_errcode (b i : Nat) (v : Entry) (s : State) : (writeBlkEntry b i v s).errcode = s.errcode := rfl
@[simp] theorem writeBlkEntry_qtdef (b i : Nat) (v : Entry) (s : State) : (writeBlkEntry b i v s).qtdef = s.qtdef := rfl
@[simp] theorem writeBlkEntry_pend (b i : Nat) (v : Entry) (s : State) : (writeBlkEntry b i v s).pend = s.pend := rfl
@[simp] theorem writeBlkEntry_qt (b i : Nat) (v : Entry) (s : State) : (writeBlkEntry b i v s).qt = s.qt := rfl
@[simp] theorem writeBlkEntry_blk (b i : Nat) (v : Entry) (s : State) : (writeBlkEntry b i v s).blk = (Memory.write s.blk (entryKey b i) v) := rfl
@[simp] theorem writeBlkEntry_out (b i : Nat) (v : Entry) (s : State) : (writeBlkEntry b i v s).out = s.out := rfl
@[simp] theorem writeBlkEntry_inputs (b i : Nat) (v : Entry) (s : State) : (writeBlkEntry b i v s).inputs = s.inputs := rfl
@[simp] theorem writeBlkEntry_rdata (b i : Nat) (v : Entry) (s : State) : (writeBlkEntry b i v s).rdata = s.rdata := rfl
@[simp] theorem writeBlkEntry_draws (b i : Nat) (v : Entry) (s : State) : (writeBlkEntry b i v s).draws = s.draws := rfl

/-! writeQtEntry -/

@[simp] theorem writeQtEntry_irqen (t i : Nat) (v : Entry) (s : State) : (writeQtEntry t i v s).irqen = s.irqen := rfl
@[simp] theorem writeQtEntry_busy (t i : Nat) (v : Entry) (s : State) : (writeQtEntry t i v s).busy = s.busy := rfl
@[simp] theorem writeQtEntry_done (t i : Nat) (v : Entry) (s : State) : (writeQtEntry t i v s).done = s.done := rfl
@[simp] theorem writeQtEntry_err (t i : Nat) (v : Entry) (s : State) : (writeQtEntry t i v s).err = s.err := rfl
@[simp] theorem writeQtEntry_sat (t i : Nat) (v : Entry) (s : State) : (writeQtEntry t i v s).sat = s.sat := rfl
@[simp] theorem writeQtEntry_errcode (t i : Nat) (v : Entry) (s : State) : (writeQtEntry t i v s).errcode = s.errcode := rfl
@[simp] theorem writeQtEntry_qtdef (t i : Nat) (v : Entry) (s : State) : (writeQtEntry t i v s).qtdef = s.qtdef := rfl
@[simp] theorem writeQtEntry_pend (t i : Nat) (v : Entry) (s : State) : (writeQtEntry t i v s).pend = s.pend := rfl
@[simp] theorem writeQtEntry_qt (t i : Nat) (v : Entry) (s : State) : (writeQtEntry t i v s).qt = (Memory.write s.qt (entryKey t i) v) := rfl
@[simp] theorem writeQtEntry_blk (t i : Nat) (v : Entry) (s : State) : (writeQtEntry t i v s).blk = s.blk := rfl
@[simp] theorem writeQtEntry_out (t i : Nat) (v : Entry) (s : State) : (writeQtEntry t i v s).out = s.out := rfl
@[simp] theorem writeQtEntry_inputs (t i : Nat) (v : Entry) (s : State) : (writeQtEntry t i v s).inputs = s.inputs := rfl
@[simp] theorem writeQtEntry_rdata (t i : Nat) (v : Entry) (s : State) : (writeQtEntry t i v s).rdata = s.rdata := rfl
@[simp] theorem writeQtEntry_draws (t i : Nat) (v : Entry) (s : State) : (writeQtEntry t i v s).draws = s.draws := rfl

/-! recordError -/

@[simp] theorem recordError_irqen (c : ErrorCode) (s : State) : (recordError c s).irqen = s.irqen := rfl
@[simp] theorem recordError_busy (c : ErrorCode) (s : State) : (recordError c s).busy = s.busy := rfl
@[simp] theorem recordError_done (c : ErrorCode) (s : State) : (recordError c s).done = s.done := rfl
@[simp] theorem recordError_err (c : ErrorCode) (s : State) : (recordError c s).err = true := rfl
@[simp] theorem recordError_sat (c : ErrorCode) (s : State) : (recordError c s).sat = s.sat := rfl
@[simp] theorem recordError_errcode (c : ErrorCode) (s : State) : (recordError c s).errcode = (if s.err then s.errcode else c.code) := rfl
@[simp] theorem recordError_qtdef (c : ErrorCode) (s : State) : (recordError c s).qtdef = s.qtdef := rfl
@[simp] theorem recordError_pend (c : ErrorCode) (s : State) : (recordError c s).pend = s.pend := rfl
@[simp] theorem recordError_qt (c : ErrorCode) (s : State) : (recordError c s).qt = s.qt := rfl
@[simp] theorem recordError_blk (c : ErrorCode) (s : State) : (recordError c s).blk = s.blk := rfl
@[simp] theorem recordError_out (c : ErrorCode) (s : State) : (recordError c s).out = s.out := rfl
@[simp] theorem recordError_inputs (c : ErrorCode) (s : State) : (recordError c s).inputs = s.inputs := rfl
@[simp] theorem recordError_rdata (c : ErrorCode) (s : State) : (recordError c s).rdata = s.rdata := rfl
@[simp] theorem recordError_draws (c : ErrorCode) (s : State) : (recordError c s).draws = s.draws := rfl

/-! clearError -/

@[simp] theorem clearError_irqen (s : State) : (clearError s).irqen = s.irqen := rfl
@[simp] theorem clearError_busy (s : State) : (clearError s).busy = s.busy := rfl
@[simp] theorem clearError_done (s : State) : (clearError s).done = s.done := rfl
@[simp] theorem clearError_err (s : State) : (clearError s).err = false := rfl
@[simp] theorem clearError_sat (s : State) : (clearError s).sat = s.sat := rfl
@[simp] theorem clearError_errcode (s : State) : (clearError s).errcode = 0 := rfl
@[simp] theorem clearError_qtdef (s : State) : (clearError s).qtdef = s.qtdef := rfl
@[simp] theorem clearError_pend (s : State) : (clearError s).pend = s.pend := rfl
@[simp] theorem clearError_qt (s : State) : (clearError s).qt = s.qt := rfl
@[simp] theorem clearError_blk (s : State) : (clearError s).blk = s.blk := rfl
@[simp] theorem clearError_out (s : State) : (clearError s).out = s.out := rfl
@[simp] theorem clearError_inputs (s : State) : (clearError s).inputs = s.inputs := rfl
@[simp] theorem clearError_rdata (s : State) : (clearError s).rdata = s.rdata := rfl
@[simp] theorem clearError_draws (s : State) : (clearError s).draws = s.draws := rfl

/-! acceptCommand -/

@[simp] theorem acceptCommand_irqen (w : Word) (s : State) : (acceptCommand w s).irqen = s.irqen := rfl
@[simp] theorem acceptCommand_busy (w : Word) (s : State) : (acceptCommand w s).busy = true := rfl
@[simp] theorem acceptCommand_done (w : Word) (s : State) : (acceptCommand w s).done = false := rfl
@[simp] theorem acceptCommand_err (w : Word) (s : State) : (acceptCommand w s).err = s.err := rfl
@[simp] theorem acceptCommand_sat (w : Word) (s : State) : (acceptCommand w s).sat = s.sat := rfl
@[simp] theorem acceptCommand_errcode (w : Word) (s : State) : (acceptCommand w s).errcode = s.errcode := rfl
@[simp] theorem acceptCommand_qtdef (w : Word) (s : State) : (acceptCommand w s).qtdef = s.qtdef := rfl
@[simp] theorem acceptCommand_pend (w : Word) (s : State) : (acceptCommand w s).pend = w := rfl
@[simp] theorem acceptCommand_qt (w : Word) (s : State) : (acceptCommand w s).qt = s.qt := rfl
@[simp] theorem acceptCommand_blk (w : Word) (s : State) : (acceptCommand w s).blk = s.blk := rfl
@[simp] theorem acceptCommand_out (w : Word) (s : State) : (acceptCommand w s).out = s.out := rfl
@[simp] theorem acceptCommand_inputs (w : Word) (s : State) : (acceptCommand w s).inputs = s.inputs := rfl
@[simp] theorem acceptCommand_rdata (w : Word) (s : State) : (acceptCommand w s).rdata = s.rdata := rfl
@[simp] theorem acceptCommand_draws (w : Word) (s : State) : (acceptCommand w s).draws = s.draws := rfl

/-! takeCommand -/

@[simp] theorem takeCommand_irqen (s : State) : (takeCommand s).irqen = s.irqen := rfl
@[simp] theorem takeCommand_busy (s : State) : (takeCommand s).busy = false := rfl
@[simp] theorem takeCommand_done (s : State) : (takeCommand s).done = s.done := rfl
@[simp] theorem takeCommand_err (s : State) : (takeCommand s).err = s.err := rfl
@[simp] theorem takeCommand_sat (s : State) : (takeCommand s).sat = s.sat := rfl
@[simp] theorem takeCommand_errcode (s : State) : (takeCommand s).errcode = s.errcode := rfl
@[simp] theorem takeCommand_qtdef (s : State) : (takeCommand s).qtdef = s.qtdef := rfl
@[simp] theorem takeCommand_pend (s : State) : (takeCommand s).pend = s.pend := rfl
@[simp] theorem takeCommand_qt (s : State) : (takeCommand s).qt = s.qt := rfl
@[simp] theorem takeCommand_blk (s : State) : (takeCommand s).blk = s.blk := rfl
@[simp] theorem takeCommand_out (s : State) : (takeCommand s).out = s.out := rfl
@[simp] theorem takeCommand_inputs (s : State) : (takeCommand s).inputs = s.inputs := rfl
@[simp] theorem takeCommand_rdata (s : State) : (takeCommand s).rdata = s.rdata := rfl
@[simp] theorem takeCommand_draws (s : State) : (takeCommand s).draws = s.draws := rfl

/-! complete -/

@[simp] theorem complete_irqen (s : State) : (complete s).irqen = s.irqen := rfl
@[simp] theorem complete_busy (s : State) : (complete s).busy = s.busy := rfl
@[simp] theorem complete_done (s : State) : (complete s).done = true := rfl
@[simp] theorem complete_err (s : State) : (complete s).err = s.err := rfl
@[simp] theorem complete_sat (s : State) : (complete s).sat = s.sat := rfl
@[simp] theorem complete_errcode (s : State) : (complete s).errcode = s.errcode := rfl
@[simp] theorem complete_qtdef (s : State) : (complete s).qtdef = s.qtdef := rfl
@[simp] theorem complete_pend (s : State) : (complete s).pend = s.pend := rfl
@[simp] theorem complete_qt (s : State) : (complete s).qt = s.qt := rfl
@[simp] theorem complete_blk (s : State) : (complete s).blk = s.blk := rfl
@[simp] theorem complete_out (s : State) : (complete s).out = s.out := rfl
@[simp] theorem complete_inputs (s : State) : (complete s).inputs = s.inputs := rfl
@[simp] theorem complete_rdata (s : State) : (complete s).rdata = s.rdata := rfl
@[simp] theorem complete_draws (s : State) : (complete s).draws = s.draws := rfl

/-! nextDraw -/

@[simp] theorem nextDraw_irqen (s : State) : (nextDraw s).irqen = s.irqen := rfl
@[simp] theorem nextDraw_busy (s : State) : (nextDraw s).busy = s.busy := rfl
@[simp] theorem nextDraw_done (s : State) : (nextDraw s).done = s.done := rfl
@[simp] theorem nextDraw_err (s : State) : (nextDraw s).err = s.err := rfl
@[simp] theorem nextDraw_sat (s : State) : (nextDraw s).sat = s.sat := rfl
@[simp] theorem nextDraw_errcode (s : State) : (nextDraw s).errcode = s.errcode := rfl
@[simp] theorem nextDraw_qtdef (s : State) : (nextDraw s).qtdef = s.qtdef := rfl
@[simp] theorem nextDraw_pend (s : State) : (nextDraw s).pend = s.pend := rfl
@[simp] theorem nextDraw_qt (s : State) : (nextDraw s).qt = s.qt := rfl
@[simp] theorem nextDraw_blk (s : State) : (nextDraw s).blk = s.blk := rfl
@[simp] theorem nextDraw_out (s : State) : (nextDraw s).out = s.out := rfl
@[simp] theorem nextDraw_inputs (s : State) : (nextDraw s).inputs = s.inputs := rfl
@[simp] theorem nextDraw_rdata (s : State) : (nextDraw s).rdata = s.rdata := rfl
@[simp] theorem nextDraw_draws (s : State) : (nextDraw s).draws = (s.draws + 1) := rfl

/-! raiseSat -/

@[simp] theorem raiseSat_irqen (f : Bool) (s : State) : (raiseSat f s).irqen = s.irqen := rfl
@[simp] theorem raiseSat_busy (f : Bool) (s : State) : (raiseSat f s).busy = s.busy := rfl
@[simp] theorem raiseSat_done (f : Bool) (s : State) : (raiseSat f s).done = s.done := rfl
@[simp] theorem raiseSat_err (f : Bool) (s : State) : (raiseSat f s).err = s.err := rfl
@[simp] theorem raiseSat_sat (f : Bool) (s : State) : (raiseSat f s).sat = (s.sat || f) := rfl
@[simp] theorem raiseSat_errcode (f : Bool) (s : State) : (raiseSat f s).errcode = s.errcode := rfl
@[simp] theorem raiseSat_qtdef (f : Bool) (s : State) : (raiseSat f s).qtdef = s.qtdef := rfl
@[simp] theorem raiseSat_pend (f : Bool) (s : State) : (raiseSat f s).pend = s.pend := rfl
@[simp] theorem raiseSat_qt (f : Bool) (s : State) : (raiseSat f s).qt = s.qt := rfl
@[simp] theorem raiseSat_blk (f : Bool) (s : State) : (raiseSat f s).blk = s.blk := rfl
@[simp] theorem raiseSat_out (f : Bool) (s : State) : (raiseSat f s).out = s.out := rfl
@[simp] theorem raiseSat_inputs (f : Bool) (s : State) : (raiseSat f s).inputs = s.inputs := rfl
@[simp] theorem raiseSat_rdata (f : Bool) (s : State) : (raiseSat f s).rdata = s.rdata := rfl
@[simp] theorem raiseSat_draws (f : Bool) (s : State) : (raiseSat f s).draws = s.draws := rfl

/-! returnWord -/

@[simp] theorem returnWord_irqen (w : Word) (s : State) : (returnWord w s).irqen = s.irqen := rfl
@[simp] theorem returnWord_busy (w : Word) (s : State) : (returnWord w s).busy = s.busy := rfl
@[simp] theorem returnWord_done (w : Word) (s : State) : (returnWord w s).done = s.done := rfl
@[simp] theorem returnWord_err (w : Word) (s : State) : (returnWord w s).err = s.err := rfl
@[simp] theorem returnWord_sat (w : Word) (s : State) : (returnWord w s).sat = s.sat := rfl
@[simp] theorem returnWord_errcode (w : Word) (s : State) : (returnWord w s).errcode = s.errcode := rfl
@[simp] theorem returnWord_qtdef (w : Word) (s : State) : (returnWord w s).qtdef = s.qtdef := rfl
@[simp] theorem returnWord_pend (w : Word) (s : State) : (returnWord w s).pend = s.pend := rfl
@[simp] theorem returnWord_qt (w : Word) (s : State) : (returnWord w s).qt = s.qt := rfl
@[simp] theorem returnWord_blk (w : Word) (s : State) : (returnWord w s).blk = s.blk := rfl
@[simp] theorem returnWord_out (w : Word) (s : State) : (returnWord w s).out = s.out := rfl
@[simp] theorem returnWord_inputs (w : Word) (s : State) : (returnWord w s).inputs = s.inputs := rfl
@[simp] theorem returnWord_rdata (w : Word) (s : State) : (returnWord w s).rdata = w := rfl
@[simp] theorem returnWord_draws (w : Word) (s : State) : (returnWord w s).draws = s.draws := rfl

/-! softReset -/

@[simp] theorem softReset_irqen (s : State) : (softReset s).irqen = false := rfl
@[simp] theorem softReset_busy (s : State) : (softReset s).busy = false := rfl
@[simp] theorem softReset_done (s : State) : (softReset s).done = false := rfl
@[simp] theorem softReset_err (s : State) : (softReset s).err = false := rfl
@[simp] theorem softReset_sat (s : State) : (softReset s).sat = false := rfl
@[simp] theorem softReset_errcode (s : State) : (softReset s).errcode = 0 := rfl
@[simp] theorem softReset_qtdef (s : State) : (softReset s).qtdef = 0 := rfl
@[simp] theorem softReset_pend (s : State) : (softReset s).pend = 0 := rfl
@[simp] theorem softReset_qt (s : State) : (softReset s).qt = s.qt := rfl
@[simp] theorem softReset_blk (s : State) : (softReset s).blk = s.blk := rfl
@[simp] theorem softReset_out (s : State) : (softReset s).out = s.out := rfl
@[simp] theorem softReset_inputs (s : State) : (softReset s).inputs = s.inputs := rfl
@[simp] theorem softReset_rdata (s : State) : (softReset s).rdata = s.rdata := rfl
@[simp] theorem softReset_draws (s : State) : (softReset s).draws = s.draws := rfl

/-! hardwareReset -/

@[simp] theorem hardwareReset_irqen (s : State) : (hardwareReset s).irqen = false := rfl
@[simp] theorem hardwareReset_busy (s : State) : (hardwareReset s).busy = false := rfl
@[simp] theorem hardwareReset_done (s : State) : (hardwareReset s).done = false := rfl
@[simp] theorem hardwareReset_err (s : State) : (hardwareReset s).err = false := rfl
@[simp] theorem hardwareReset_sat (s : State) : (hardwareReset s).sat = false := rfl
@[simp] theorem hardwareReset_errcode (s : State) : (hardwareReset s).errcode = 0 := rfl
@[simp] theorem hardwareReset_qtdef (s : State) : (hardwareReset s).qtdef = 0 := rfl
@[simp] theorem hardwareReset_pend (s : State) : (hardwareReset s).pend = 0 := rfl
@[simp] theorem hardwareReset_qt (s : State) : (hardwareReset s).qt = [] := rfl
@[simp] theorem hardwareReset_blk (s : State) : (hardwareReset s).blk = [] := rfl
@[simp] theorem hardwareReset_out (s : State) : (hardwareReset s).out = [] := rfl
@[simp] theorem hardwareReset_inputs (s : State) : (hardwareReset s).inputs = s.inputs := rfl
@[simp] theorem hardwareReset_rdata (s : State) : (hardwareReset s).rdata = s.rdata := rfl
@[simp] theorem hardwareReset_draws (s : State) : (hardwareReset s).draws = s.draws := rfl

/-! turnTaken -/

@[simp] theorem turnTaken_irqen (s : State) : (turnTaken s).irqen = s.irqen := rfl
@[simp] theorem turnTaken_busy (s : State) : (turnTaken s).busy = s.busy := rfl
@[simp] theorem turnTaken_done (s : State) : (turnTaken s).done = s.done := rfl
@[simp] theorem turnTaken_err (s : State) : (turnTaken s).err = s.err := rfl
@[simp] theorem turnTaken_sat (s : State) : (turnTaken s).sat = s.sat := rfl
@[simp] theorem turnTaken_errcode (s : State) : (turnTaken s).errcode = s.errcode := rfl
@[simp] theorem turnTaken_qtdef (s : State) : (turnTaken s).qtdef = s.qtdef := rfl
@[simp] theorem turnTaken_pend (s : State) : (turnTaken s).pend = s.pend := rfl
@[simp] theorem turnTaken_qt (s : State) : (turnTaken s).qt = s.qt := rfl
@[simp] theorem turnTaken_blk (s : State) : (turnTaken s).blk = s.blk := rfl
@[simp] theorem turnTaken_out (s : State) : (turnTaken s).out = s.out := rfl
@[simp] theorem turnTaken_inputs (s : State) : (turnTaken s).inputs = s.inputs.tail := rfl
@[simp] theorem turnTaken_rdata (s : State) : (turnTaken s).rdata = s.rdata := rfl
@[simp] theorem turnTaken_draws (s : State) : (turnTaken s).draws = s.draws := rfl

end Sys2Proof.Machine
end

