-- ==== Sys2Proof/Laws/Operands.lean ====
section
/-! SUPPORT. What the operand reads find after each operation that writes BLK, QT or OUT, and that each keeps the
canonical form. -/

namespace Sys2Proof.Machine

/-- BLK after a block store, by key: the buffer's keys hold the values, every other key is as before. -/
theorem read_storeBlk (b : Fin 8) (g : Nat → Entry) (s : State) (k : Nat) :
    Memory.read (storeBlk b g s).blk k =
      if 64 * b.val ≤ k ∧ k < 64 * b.val + 64 then some (g (k - 64 * b.val)) else Memory.read s.blk k := by
  simp only [storeBlk_blk, Memory.read_writeFrom, entries_length, entryKey, Config.nElem, Nat.add_zero]
  split
  · rw [entries_getElem? g (by omega)]
  · rfl

/-- OUT after a block store, by key. -/
theorem read_storeOut (o : Fin 4) (g : Nat → Pixel) (s : State) (k : Nat) :
    Memory.read (storeOut o g s).out k =
      if 64 * o.val ≤ k ∧ k < 64 * o.val + 64 then some (g (k - 64 * o.val)) else Memory.read s.out k := by
  simp only [storeOut_out, Memory.read_writeFrom, entries_length, entryKey, Config.nElem, Nat.add_zero]
  split
  · rw [entries_getElem? g (by omega)]
  · rfl

/-- The stored buffer's entries. -/
theorem blkEntry_storeBlk_same (b : Fin 8) (g : Nat → Entry) (s : State) {i : Nat} (h : i < 64) :
    blkEntry (storeBlk b g s) b i = some (g i) := by
  have h' : 64 * b.val ≤ 64 * b.val + i ∧ 64 * b.val + i < 64 * b.val + 64 := by omega
  simp only [blkEntry, entryKey, Config.nElem, read_storeBlk, if_pos h', Nat.add_sub_cancel_left]

/-- Another buffer's entries. -/
theorem blkEntry_storeBlk_other {b c : Fin 8} (g : Nat → Entry) (s : State) {i : Nat} (h : i < 64) (hbc : c ≠ b) :
    blkEntry (storeBlk b g s) c i = blkEntry s c i := by
  have hv : c.val ≠ b.val := fun e => hbc (Fin.ext e)
  have h' : ¬(64 * b.val ≤ 64 * c.val + i ∧ 64 * c.val + i < 64 * b.val + 64) := by omega
  simp only [blkEntry, entryKey, Config.nElem, read_storeBlk, if_neg h']

/-- The stored output buffer's pixels. -/
theorem outPixel_storeOut_same (o : Fin 4) (g : Nat → Pixel) (s : State) {i : Nat} (h : i < 64) :
    outPixel (storeOut o g s) o i = some (g i) := by
  have h' : 64 * o.val ≤ 64 * o.val + i ∧ 64 * o.val + i < 64 * o.val + 64 := by omega
  simp only [outPixel, entryKey, Config.nElem, read_storeOut, if_pos h', Nat.add_sub_cancel_left]

/-- Another output buffer's pixels. -/
theorem outPixel_storeOut_other {o p : Fin 4} (g : Nat → Pixel) (s : State) {i : Nat} (h : i < 64) (hop : p ≠ o) :
    outPixel (storeOut o g s) p i = outPixel s p i := by
  have hv : p.val ≠ o.val := fun e => hop (Fin.ext e)
  have h' : ¬(64 * o.val ≤ 64 * p.val + i ∧ 64 * p.val + i < 64 * o.val + 64) := by omega
  simp only [outPixel, entryKey, Config.nElem, read_storeOut, if_neg h']

/-- The frame of a block store: no key outside the buffer (R29, R30). -/
theorem read_storeBlk_outside {b : Fin 8} {g : Nat → Entry} {s : State} {k : Nat}
    (h : k < 64 * b.val ∨ 64 * b.val + 64 ≤ k) : Memory.read (storeBlk b g s).blk k = Memory.read s.blk k := by
  rw [read_storeBlk, if_neg (by omega)]

theorem read_storeOut_outside {o : Fin 4} {g : Nat → Pixel} {s : State} {k : Nat}
    (h : k < 64 * o.val ∨ 64 * o.val + 64 ≤ k) : Memory.read (storeOut o g s).out k = Memory.read s.out k := by
  rw [read_storeOut, if_neg (by omega)]

/-- The operand reads see BLK, QT and OUT only. -/
theorem blkEntry_congr {s t : State} (h : t.blk = s.blk) (b i : Nat) : blkEntry t b i = blkEntry s b i := by
  simp [blkEntry, h]

theorem qtEntry_congr {s t : State} (h : t.qt = s.qt) (q i : Nat) : qtEntry t q i = qtEntry s q i := by
  simp [qtEntry, h]

theorem outPixel_congr {s t : State} (h : t.out = s.out) (o i : Nat) : outPixel t o i = outPixel s o i := by
  simp [outPixel, h]

/-- A completed colour conversion leaves every entry of BLK (R153, R155). -/
theorem blkEntry_of_converted (o : Fin 4) (g : Nat → Pixel) (s : State) (b i : Nat) :
    blkEntry (nextDraw (complete (storeOut o g s))) b i = blkEntry s b i :=
  blkEntry_congr (by simp) b i

/-- The value of a stored entry (R101, R122). -/
theorem coef_storeBlk_same (b : Fin 8) (g : Nat → Entry) (s : State) {i : Nat} (h : i < 64) :
    coef (storeBlk b g s) b i = some (g i).toInt := by
  rw [coef, blkEntry_storeBlk_same b g s h, Option.map_some]

theorem coef_of_written {s : State} {b : Fin 8} {i : Nat} (h : (blkEntry s b i).isSome = true) :
    coef s b i = some (blkVal s b i) := by
  obtain ⟨e, he⟩ := Option.isSome_iff_exists.mp h
  simp [coef, blkVal, he]

/-- A command reads a written entry's value, whichever read it is (R29). -/
theorem readCoef_of_written {s : State} {b : Fin 8} {i : Nat} (h : (blkEntry s b i).isSome = true) (k : Nat) :
    readCoef s b i k = blkVal s b i := by
  obtain ⟨e, he⟩ := Option.isSome_iff_exists.mp h
  simp [readCoef, blkVal, he]

theorem readQuant_of_written {s : State} {t : Fin 4} {i : Nat} (h : (qtEntry s t i).isSome = true) (k : Nat) :
    readQuant s t i k = qtVal s t i := by
  obtain ⟨e, he⟩ := Option.isSome_iff_exists.mp h
  simp [readQuant, qtVal, he]

/-- Sixteen bits as a signed and as an unsigned number. -/
theorem entry_toInt_bounds (e : Entry) : -32768 ≤ e.toInt ∧ e.toInt ≤ 32767 := by
  have h1 := BitVec.le_toInt e
  have h2 := BitVec.toInt_lt (x := e)
  norm_num at h1 h2
  omega

theorem entry_toNat_bounds (e : Entry) : 0 ≤ (e.toNat : Int) ∧ (e.toNat : Int) ≤ 65535 := by
  have h := e.isLt
  norm_num at h
  omega

/-- All a command's reads of a buffer, or of a slot, can find (D30). -/
theorem blkReads_readCoef (s : State) (b : Fin 8) (index number : Nat → Nat) :
    BlkReads s b index fun n => readCoef s b (index n) (number n) :=
  fun _ _ => ⟨entry_toInt_bounds _, fun e he => by simp [readCoef, he]⟩

theorem qtReads_readQuant (s : State) (t : Fin 4) (number : Nat → Nat) :
    QtReads s t fun n => readQuant s t n (number n) :=
  fun _ _ => ⟨entry_toNat_bounds _, fun e he => by simp [readQuant, he]⟩

/-- Where a buffer or a slot is written, its reads find its values and nothing else. -/
theorem BlkReads.eq_blkVal {s : State} {b : Fin 8} {index : Nat → Nat} {x : Nat → Int} (h : BlkReads s b index x) {n : Nat}
    (hn : n < 64) (hw : (blkEntry s b (index n)).isSome = true) : x n = blkVal s b (index n) := by
  obtain ⟨e, he⟩ := Option.isSome_iff_exists.mp hw
  simp [(h n hn).2 e he, blkVal, he]

theorem QtReads.eq_qtVal {s : State} {t : Fin 4} {q : Nat → Int} (h : QtReads s t q) {n : Nat} (hn : n < 64)
    (hw : (qtEntry s t n).isSome = true) : q n = qtVal s t n := by
  obtain ⟨e, he⟩ := Option.isSome_iff_exists.mp hw
  simp [(h n hn).2 e he, qtVal, he]

theorem wf_storeBlk (b : Fin 8) (g : Nat → Entry) (s : State) (h : Memory.wf 512 s.blk = true) :
    Memory.wf 512 (storeBlk b g s).blk = true := by
  have hb := b.isLt
  exact Memory.wf_writeFrom _ _ _ (by simp only [entries_length, entryKey, Config.nElem]; omega) h

theorem wf_storeOut (o : Fin 4) (g : Nat → Pixel) (s : State) (h : Memory.wf 256 s.out = true) :
    Memory.wf 256 (storeOut o g s).out = true := by
  have ho := o.isLt
  exact Memory.wf_writeFrom _ _ _ (by simp only [entries_length, entryKey, Config.nElem]; omega) h

theorem wf_writeBlkEntry {b i : Nat} (v : Entry) (s : State) (hb : b < 8) (hi : i < 64)
    (h : Memory.wf 512 s.blk = true) : Memory.wf 512 (writeBlkEntry b i v s).blk = true :=
  Memory.wf_write _ _ (by simp only [entryKey, Config.nElem]; omega) h

theorem wf_writeQtEntry {t i : Nat} (v : Entry) (s : State) (ht : t < 4) (hi : i < 64)
    (h : Memory.wf 256 s.qt = true) : Memory.wf 256 (writeQtEntry t i v s).qt = true :=
  Memory.wf_write _ _ (by simp only [entryKey, Config.nElem]; omega) h

/-- A block store writes its whole buffer, and no entry becomes unwritten. -/
theorem blkWritten_storeBlk (b : Fin 8) (g : Nat → Entry) (s : State) : BlkWritten (storeBlk b g s) b := by
  intro i hi
  rw [blkEntry_storeBlk_same b g s hi]
  rfl

theorem blkWritten_storeBlk_of {b c : Fin 8} (g : Nat → Entry) {s : State} (h : BlkWritten s c) :
    BlkWritten (storeBlk b g s) c := by
  by_cases e : c = b
  · subst e
    exact blkWritten_storeBlk c g s
  · intro i hi
    rw [blkEntry_storeBlk_other g s hi e]
    exact h i hi

end Sys2Proof.Machine
end

