-- ==== Sys2Proof/Laws/Step.lean ====
section
/-! SUPPORT. What a step is for each kind of turn, said once, so that no later proof unfolds `step` or the address
arithmetic of BASE. -/

namespace Sys2Proof.Machine

theorem apertureOffset_add {off : Nat} (h : off < Config.apertureSize) : apertureOffset (Config.base + off) = some off := by
  unfold apertureOffset
  rw [if_pos ⟨Nat.le_add_right _ _, Nat.add_lt_add_left h _⟩, Nat.add_sub_cancel_left]

theorem apertureOffset_eq_some {addr off : Nat} (h : apertureOffset addr = some off) :
    addr = Config.base + off ∧ off < Config.apertureSize := by
  unfold apertureOffset at h
  split at h
  · simp only [Option.some.injEq] at h
    omega
  · simp at h

theorem goodAccess_iff {off bytes : Nat} : goodAccess off bytes = true ↔ bytes = 4 ∧ off % 4 = 0 := by
  simp [goodAccess]

/-- A run of several steps is one step and the rest. -/
theorem runSteps_succ {s t : State} (h : step s = .next t) (n : Nat) : runSteps (n + 1) s = runSteps n t := by
  simp only [runSteps, h]

/-- A step with the engine next is its engine step. -/
theorem step_of_engineNext {s : State} (h : EngineNext s = true) : step s = engineStep (turnTaken s) := by
  obtain ⟨irqen, busy, done, err, sat, errcode, qtdef, pend, qt, blk, out, inputs, rdata, draws⟩ := s
  unfold EngineNext at h
  unfold step turnTaken
  rcases inputs with _ | ⟨e, rest⟩
  · simp_all [engineTurn]
  · cases e <;> simp_all [engineTurn, turn]

/-- A step with a legal write next. -/
theorem step_of_writesNext {s : State} {off : Nat} {w : Word} (h : WritesNext s off w) :
    step s = .next (writeWord off w (turnTaken s)) := by
  obtain ⟨ha, ho, hi⟩ := h
  obtain ⟨irqen, busy, done, err, sat, errcode, qtdef, pend, qt, blk, out, inputs, rdata, draws⟩ := s
  rcases inputs with _ | ⟨e, rest⟩
  · simp at hi
  · simp only [List.head?_cons, Option.some.injEq] at hi
    subst hi
    simp [step, turn, sw, atAperture, apertureOffset_add ho, hostWrite, goodAccess, ha, turnTaken]

/-- A step with a legal read next. -/
theorem step_of_readsNext {s : State} {off : Nat} (h : ReadsNext s off) :
    step s = .next (nextDraw (returnWord (readWord off (turnTaken s)) (turnTaken s))) := by
  obtain ⟨ha, ho, hi⟩ := h
  obtain ⟨irqen, busy, done, err, sat, errcode, qtdef, pend, qt, blk, out, inputs, rdata, draws⟩ := s
  rcases inputs with _ | ⟨e, rest⟩
  · simp at hi
  · simp only [List.head?_cons, Option.some.injEq] at hi
    subst hi
    simp [step, turn, lw, atAperture, apertureOffset_add ho, hostRead, goodAccess, ha, turnTaken]

/-- Everything a step can be, by whose turn it is. -/
theorem step_cases {s t : State} (h : step s = .next t) :
    (EngineNext s = true ∧ engineStep (turnTaken s) = .next t)
    ∨ (s.busy = false ∧ (s.inputs = [] ∨ s.inputs.head? = some .engine) ∧ t = turnTaken s)
    ∨ (s.inputs.head? = some .hardReset ∧ t = hardwareReset (turnTaken s))
    ∨ (∃ off, ReadsNext s off ∧ t = nextDraw (returnWord (readWord off (turnTaken s)) (turnTaken s)))
    ∨ (∃ off w, WritesNext s off w ∧ t = writeWord off w (turnTaken s))
    ∨ (∃ off bytes, off < Config.apertureSize ∧ ¬(bytes = 4 ∧ off % 4 = 0)
        ∧ s.inputs.head? = some (.read (Config.base + off) bytes)
        ∧ t = returnWord 0 (recordError .badAccess (turnTaken s)))
    ∨ (∃ off bytes w, off < Config.apertureSize ∧ ¬(bytes = 4 ∧ off % 4 = 0)
        ∧ s.inputs.head? = some (.write (Config.base + off) bytes w) ∧ t = recordError .badAccess (turnTaken s)) := by
  obtain ⟨irqen, busy, done, err, sat, errcode, qtdef, pend, qt, blk, out, inputs, rdata, draws⟩ := s
  rcases inputs with _ | ⟨e, rest⟩
  · cases busy
    · right; left
      simp_all [step, engineTurn, turnTaken]
    · left
      simp_all [step, engineTurn, turnTaken, EngineNext]
  · cases e with
    | engine =>
      cases busy
      · right; left
        simp_all [step, engineTurn, turn, turnTaken]
      · left
        simp_all [step, engineTurn, turn, turnTaken, EngineNext]
    | hardReset =>
      right; right; left
      simp_all [step, turn, turnTaken]
    | read addr bytes =>
      right; right; right
      simp only [step, turn, atAperture] at h
      split at h
      · rename_i off ho
        obtain ⟨rfl, hlt⟩ := apertureOffset_eq_some ho
        simp only [Host.Outcome.next.injEq] at h
        by_cases hg : bytes = 4 ∧ off % 4 = 0
        · left
          refine ⟨off, ⟨hg.2, hlt, ?_⟩, ?_⟩
          · simp [lw, hg.1]
          · rw [← h, hostRead, if_pos (goodAccess_iff.mpr hg)]
            rfl
        · right; right; left
          refine ⟨off, bytes, hlt, hg, rfl, ?_⟩
          rw [← h, hostRead, if_neg (fun e => hg (goodAccess_iff.mp e))]
          rfl
      · simp at h
    | write addr bytes w =>
      right; right; right; right
      simp only [step, turn, atAperture] at h
      split at h
      · rename_i off ho
        obtain ⟨rfl, hlt⟩ := apertureOffset_eq_some ho
        simp only [Host.Outcome.next.injEq] at h
        by_cases hg : bytes = 4 ∧ off % 4 = 0
        · left
          refine ⟨off, w, ⟨hg.2, hlt, ?_⟩, ?_⟩
          · simp [sw, hg.1]
          · rw [← h, hostWrite, if_pos (goodAccess_iff.mpr hg)]
            rfl
        · right; right
          refine ⟨off, bytes, w, hlt, hg, rfl, ?_⟩
          rw [← h, hostWrite, if_neg (fun e => hg (goodAccess_iff.mp e))]
          rfl
      · simp at h

/-- The registers are at six offsets, and every other offset below the windows is reserved (R52). -/
theorem registerAt_cases (off : Nat) :
    (off = 0x000 ∧ registerAt off = .id) ∨ (off = 0x004 ∧ registerAt off = .ctrl) ∨ (off = 0x008 ∧ registerAt off = .status)
      ∨ (off = 0x00C ∧ registerAt off = .errcode) ∨ (off = 0x010 ∧ registerAt off = .cmd)
      ∨ (off = 0x014 ∧ registerAt off = .qtdef) ∨ registerAt off = .reserved := by
  unfold registerAt
  split <;> simp

/-- A legal write is one of these (R52). -/
theorem writeWord_cases (off : Nat) (w : Word) (s : State) :
    writeWord off w s = s ∨ (off = 0x004 ∧ writeWord off w s = writeCtrl w s)
    ∨ (off = 0x008 ∧ writeWord off w s = writeStatus w s) ∨ (off = 0x010 ∧ writeWord off w s = writeCmd w s)
    ∨ (off = 0x014 ∧ writeWord off w s = writeUnlessBusy (fun s => { s with qtdef := w.setWidth 4 }) s)
    ∨ (0x400 ≤ off ∧ off < 0x800 ∧ writeWord off w s
        = writeUnlessBusy (writeQtEntry ((off - 0x400) / 0x100) ((off - 0x400) % 0x100 / 4) (w.setWidth 16)) s)
    ∨ (0x800 ≤ off ∧ off < 0x1000 ∧ writeWord off w s
        = writeUnlessBusy (writeBlkEntry ((off - 0x800) / 0x100) ((off - 0x800) % 0x100 / 4) (w.setWidth 16)) s) := by
  unfold writeWord regionAt
  split_ifs with h4 h8 h10 h14
  · rcases registerAt_cases off with ⟨rfl, h⟩ | ⟨rfl, h⟩ | ⟨rfl, h⟩ | ⟨rfl, h⟩ | ⟨rfl, h⟩ | ⟨rfl, h⟩ | h
    · exact .inl rfl
    · exact .inr (.inl ⟨rfl, rfl⟩)
    · exact .inr (.inr (.inl ⟨rfl, rfl⟩))
    · exact .inl rfl
    · exact .inr (.inr (.inr (.inl ⟨rfl, rfl⟩)))
    · exact .inr (.inr (.inr (.inr (.inl ⟨rfl, rfl⟩))))
    · rw [h]
      exact .inl rfl
  · exact .inr (.inr (.inr (.inr (.inr (.inl ⟨Nat.le_of_not_lt h4, h8, rfl⟩)))))
  · exact .inr (.inr (.inr (.inr (.inr (.inr ⟨Nat.le_of_not_lt h8, h10, rfl⟩)))))
  · exact .inl rfl
  · exact .inl rfl

end Sys2Proof.Machine
end

