-- ==== Sys2Proof/Laws/Bus.lean ====
section
/-! SUPPORT. The address map at the offsets of the windows, and the register words bit by bit. -/

namespace Sys2Proof.Machine

/-- Every offset of each window is an entry's (R55 to R57). -/
theorem regionAt_qt_of_range {off : Nat} (h : 0x400 ≤ off ∧ off < 0x800) :
    regionAt off = .qt ((off - 0x400) / 0x100) ((off - 0x400) % 0x100 / 4) := by
  have h4 : ¬off < 0x400 := by omega
  simp only [regionAt, h4, h.2, if_false, if_true]

theorem regionAt_blk_of_range {off : Nat} (h : 0x800 ≤ off ∧ off < 0x1000) :
    regionAt off = .blk ((off - 0x800) / 0x100) ((off - 0x800) % 0x100 / 4) := by
  have h4 : ¬off < 0x400 := by omega
  have h8 : ¬off < 0x800 := by omega
  simp only [regionAt, h4, h8, h.2, if_false, if_true]

theorem regionAt_out_of_range {off : Nat} (h : 0x1000 ≤ off ∧ off < 0x1400) :
    regionAt off = .out ((off - 0x1000) / 0x100) ((off - 0x1000) % 0x100 / 4) := by
  have h4 : ¬off < 0x400 := by omega
  have h8 : ¬off < 0x800 := by omega
  have h10 : ¬off < 0x1000 := by omega
  simp only [regionAt, h4, h8, h10, h.2, if_false, if_true]

/-- The offset of each entry of each window (R55 to R57). -/
theorem regionAt_qt {t i : Nat} (ht : t < 4) (hi : i < 64) : regionAt (0x400 + 0x100 * t + 4 * i) = .qt t i := by
  rw [regionAt_qt_of_range (by omega)]
  congr 1 <;> omega

theorem regionAt_blk {b i : Nat} (hb : b < 8) (hi : i < 64) : regionAt (0x800 + 0x100 * b + 4 * i) = .blk b i := by
  rw [regionAt_blk_of_range (by omega)]
  congr 1 <;> omega

theorem regionAt_out {o i : Nat} (ho : o < 4) (hi : i < 64) : regionAt (0x1000 + 0x100 * o + 4 * i) = .out o i := by
  rw [regionAt_out_of_range (by omega)]
  congr 1 <;> omega

/-- An offset past the last register is no register's. -/
theorem registerAt_reserved {off : Nat} (h : 0x018 ≤ off) : registerAt off = .reserved := by
  unfold registerAt
  split <;> first | omega | rfl

/-- A reserved offset (R59). -/
theorem regionAt_reserved {off : Nat} (h : 0x018 ≤ off ∧ off < 0x400 ∨ 0x1400 ≤ off) : regionAt off = .reserved := by
  unfold regionAt
  split
  · exact registerAt_reserved (by omega)
  · split
    · omega
    · split
      · omega
      · rw [if_neg (by omega)]

/-- A flag's register bit and no other. -/
theorem getLsbD_flagBit (b : Bool) {n k : Nat} (hn : n < 32) : (flagBit b n).getLsbD k = (b && decide (k = n)) := by
  unfold flagBit
  by_cases hk : k = n
  · subst hk
    cases b <;> simp [hn]
  · by_cases hlt : k < n
    · simp [hlt, hk]
    · have h1 : ¬k - n = 0 := by omega
      simp [hk, h1]

/-- What a legal write of each register does (R22, R23, R25, R26). -/
theorem writeWord_ctrl (w : Word) (s : State) : writeWord 0x004 w s = writeCtrl w s := rfl

theorem writeWord_status (w : Word) (s : State) : writeWord 0x008 w s = writeStatus w s := rfl

theorem writeWord_cmd (w : Word) (s : State) : writeWord 0x010 w s = writeCmd w s := rfl

theorem writeWord_qtdef (w : Word) (s : State) :
    writeWord 0x014 w s = writeUnlessBusy (fun s => { s with qtdef := w.setWidth 4 }) s := rfl

/-- What a legal write of each window does (R55, R56, R60). -/
theorem writeWord_qt {t i : Nat} (ht : t < 4) (hi : i < 64) (w : Word) (s : State) :
    writeWord (0x400 + 0x100 * t + 4 * i) w s = writeUnlessBusy (writeQtEntry t i (w.setWidth 16)) s := by
  unfold writeWord
  rw [regionAt_qt ht hi]

theorem writeWord_blk {b i : Nat} (hb : b < 8) (hi : i < 64) (w : Word) (s : State) :
    writeWord (0x800 + 0x100 * b + 4 * i) w s = writeUnlessBusy (writeBlkEntry b i (w.setWidth 16)) s := by
  unfold writeWord
  rw [regionAt_blk hb hi]

/-- Whether BUSY is 1 decides a guarded write (R60). -/
theorem writeUnlessBusy_idle {upd : State → State} {s : State} (h : s.busy = false) : writeUnlessBusy upd s = upd s := by
  simp [writeUnlessBusy, h]

theorem writeUnlessBusy_busy {upd : State → State} {s : State} (h : s.busy = true) :
    writeUnlessBusy upd s = recordError .accessWhileBusy s := by
  simp [writeUnlessBusy, h]

/-- What a legal read of each register returns (R21 to R26). -/
theorem readWord_ctrl (s : State) : readWord 0x004 s = ctrlWord s := rfl

theorem readWord_status (s : State) : readWord 0x008 s = statusWord s := rfl

theorem readWord_errcode (s : State) : readWord 0x00C s = errcodeWord s := rfl

theorem readWord_qtdef (s : State) : readWord 0x014 s = qtdefWord s := rfl

/-- What a legal read of each window returns with BUSY = 0 (R55 to R57). -/
theorem readWord_qt {t i : Nat} (ht : t < 4) (hi : i < 64) {s : State} (hb : s.busy = false) :
    readWord (0x400 + 0x100 * t + 4 * i) s = qtBusWord ((qtEntry s t i).getD (Config.freeEntry s.draws 0)) := by
  unfold readWord
  rw [regionAt_qt ht hi]
  simp [hb]

theorem readWord_blk {b i : Nat} (ht : b < 8) (hi : i < 64) {s : State} (hb : s.busy = false) :
    readWord (0x800 + 0x100 * b + 4 * i) s = blkBusWord ((blkEntry s b i).getD (Config.freeEntry s.draws 0)) := by
  unfold readWord
  rw [regionAt_blk ht hi]
  simp [hb]

theorem readWord_out {o i : Nat} (ht : o < 4) (hi : i < 64) {s : State} (hb : s.busy = false) :
    readWord (0x1000 + 0x100 * o + 4 * i) s = pixelBusWord ((outPixel s o i).getD (freePixel s.draws)) := by
  unfold readWord
  rw [regionAt_out ht hi]
  simp [hb]

/-- The byte lanes of a pixel's word (R54, R57). -/
theorem byteLane_pixelBusWord (p : Pixel) :
    byteLane 0 (pixelBusWord p) = p.r ∧ byteLane 1 (pixelBusWord p) = p.g ∧ byteLane 2 (pixelBusWord p) = p.b
      ∧ byteLane 3 (pixelBusWord p) = 0 := by
  unfold byteLane pixelBusWord
  refine ⟨?_, ?_, ?_, ?_⟩ <;> ext i hi <;> interval_cases i <;> simp

end Sys2Proof.Machine
end

