-- ==== Sys2Proof/Laws/PerInstr.lean ====
section
/-! SUPPORT. Statements made per instruction: every command's encoding is a word of its own row of the opcode table
(spec/30_encoding.md R84). -/

namespace Sys2Proof.Laws.RowMatch

/-- The encoding of the command matches its row's mask and match. -/
def Statement (i : Instr) : Prop := i.row.accepts (encode i) = true

theorem accepts_of_bits {r : Row} {w : Word}
    (h : ∀ i < 32, (w &&& r.mask).getLsbD i = r.pattern.getLsbD i) : r.accepts w = true := by
  have : w &&& r.mask = r.pattern := BitVec.eq_of_getLsbD_eq h
  simp [Row.accepts, this]

theorem nop : Statement .nop := by
  unfold Statement
  decide

theorem deq (rd rs : Fin 8) (qt : Fin 4) : Statement (.deq rd rs qt) := by
  apply accepts_of_bits
  intro i hi
  interval_cases i <;> simp [Instr.row, rowDeq, encode, formatB, place]

theorem idct (rd rs : Fin 8) : Statement (.idct rd rs) := by
  apply accepts_of_bits
  intro i hi
  interval_cases i <;> simp [Instr.row, rowIdct, encode, formatB, place, bits2]

theorem cconv (ry rcb rcr : Fin 8) (ro : Fin 4) (h v hs vs : Fin 2) : Statement (.cconv ry rcb rcr ro h v hs vs) := by
  apply accepts_of_bits
  intro i hi
  interval_cases i <;> simp [Instr.row, rowCconv, encode, formatC, place]

theorem gray (ry : Fin 8) (ro : Fin 4) : Statement (.gray ry ro) := by
  apply accepts_of_bits
  intro i hi
  interval_cases i <;> simp [Instr.row, rowGray, encode, formatC, place, bits1, bits3]

theorem clr (rd : Fin 8) : Statement (.clr rd) := by
  apply accepts_of_bits
  intro i hi
  interval_cases i <;> simp [Instr.row, rowClr, encode, formatB, place, bits2, bits3]

theorem dqi (rd rs : Fin 8) (qt : Fin 4) : Statement (.dqi rd rs qt) := by
  apply accepts_of_bits
  intro i hi
  interval_cases i <;> simp [Instr.row, rowDqi, encode, formatB, place]

end Sys2Proof.Laws.RowMatch
end

