-- ==== Sys2Proof/Laws/Decode.lean ====
section
/-! SUPPORT. The decoder by its rows, and the fields of the two formats: what a proof about `decode` or `encode` cites
instead of unfolding them. -/

namespace Sys2Proof

theorem Row.accepts_iff {r : Row} {w : Word} : r.accepts w = true ↔ w &&& r.mask = r.pattern := by
  simp [Row.accepts]

theorem acceptRow_eq_ok {r : Row} {w : Word} {i j : Instr} :
    acceptRow r w i = .ok j ↔ r.accepts w = true ∧ i = j := by
  unfold acceptRow
  split <;> simp_all

theorem acceptRow_eq_error {r : Row} {w : Word} {i : Instr} {e : Reject} :
    acceptRow r w i = .error e ↔ r.accepts w = false ∧ e = .requiredZeroBit := by
  unfold acceptRow
  by_cases h : r.accepts w = true
  · simp [h]
  · simp only [if_neg h, Except.error.injEq]
    exact ⟨fun e => ⟨by simpa using h, e.symm⟩, fun e => e.2.symm⟩

/-- A command with its fields taken from a word. -/
def Instr.withFields (i : Instr) (w : Word) : Instr :=
  match i with
  | .nop => .nop
  | .deq _ _ _ => .deq (fieldRd w) (fieldRs w) (fieldQt w)
  | .idct _ _ => .idct (fieldRd w) (fieldRs w)
  | .cconv _ _ _ _ _ _ _ _ =>
    .cconv (fieldRd w) (fieldRs w) (fieldRcr w) (fieldRo w) (fieldH w) (fieldV w) (fieldHs w) (fieldVs w)
  | .gray _ _ => .gray (fieldRd w) (fieldRo w)
  | .clr _ => .clr (fieldRd w)
  | .dqi _ _ _ => .dqi (fieldRd w) (fieldRs w) (fieldQt w)

/-- A row whose mask covers OPC fixes OPC (R84). -/
theorem fieldOpc_of_accepts {r : Row} {w : Word} (h : r.accepts w = true) (hm : r.mask.extractLsb 31 28 = 15#4) :
    fieldOpc w = fieldOpc r.pattern := by
  have h' := Row.accepts_iff.mp h
  have e : w.extractLsb 31 28 = r.pattern.extractLsb 31 28 := by
    apply BitVec.eq_of_getLsbD_eq
    intro i hi
    have hi' : i < 4 := by omega
    have hb := congrArg (fun v => BitVec.getLsbD v (28 + i)) h'
    have hmb := congrArg (fun v => BitVec.getLsbD v i) hm
    interval_cases i <;> simp [BitVec.extractLsb] at hb hmb ⊢ <;> simp_all
  unfold fieldOpc
  rw [e]

theorem row_mask_covers_opc (i : Instr) : i.row.mask.extractLsb 31 28 = 15#4 := by
  cases i <;> simp only [Instr.row] <;> decide

/-- The OPC of each row (R83). -/
theorem row_opc : fieldOpc rowNop.pattern = 0 ∧ fieldOpc rowDeq.pattern = 1 ∧ fieldOpc rowIdct.pattern = 2
    ∧ fieldOpc rowCconv.pattern = 3 ∧ fieldOpc rowGray.pattern = 4 ∧ fieldOpc rowClr.pattern = 5
    ∧ fieldOpc rowDqi.pattern = 6 := by
  decide

/-- A word decodes to a command exactly when the command's row accepts it and its fields are the word's (R82 to R84). -/
theorem decode_eq_ok_iff {w : Word} {i : Instr} :
    decode w = .ok i ↔ i.row.accepts w = true ∧ i.withFields w = i := by
  constructor
  · intro h
    unfold decode at h
    split at h
    all_goals first
      | (obtain ⟨h1, rfl⟩ := acceptRow_eq_ok.mp h; exact ⟨h1, rfl⟩)
      | simp at h
  · rintro ⟨h1, h2⟩
    have ho := fieldOpc_of_accepts h1 (row_mask_covers_opc i)
    obtain ⟨o0, o1, o2, o3, o4, o5, o6⟩ := row_opc
    unfold decode
    cases i <;> simp only [Instr.row, o0, o1, o2, o3, o4, o5, o6] at ho <;> rw [ho] <;>
      exact acceptRow_eq_ok.mpr ⟨h1, h2⟩

/-- The fields of a word of format B (R81, R82). -/
theorem formatB_fields (opc : BitVec 4) (rd rs : Fin 8) (qt : Fin 4) :
    fieldRd (formatB opc rd rs qt) = rd ∧ fieldRs (formatB opc rd rs qt) = rs ∧ fieldQt (formatB opc rd rs qt) = qt := by
  have h1 : (formatB opc rd rs qt).extractLsb 27 25 = bits3 rd := by
    apply BitVec.eq_of_getLsbD_eq
    intro i hi
    have hi' : i < 3 := by omega
    interval_cases i <;> simp [formatB, place, BitVec.extractLsb]
  have h2 : (formatB opc rd rs qt).extractLsb 24 22 = bits3 rs := by
    apply BitVec.eq_of_getLsbD_eq
    intro i hi
    have hi' : i < 3 := by omega
    interval_cases i <;> simp [formatB, place, BitVec.extractLsb]
  have h3 : (formatB opc rd rs qt).extractLsb 21 20 = bits2 qt := by
    apply BitVec.eq_of_getLsbD_eq
    intro i hi
    have hi' : i < 2 := by omega
    interval_cases i <;> simp [formatB, place, BitVec.extractLsb]
  exact ⟨congrArg BitVec.toFin h1, congrArg BitVec.toFin h2, congrArg BitVec.toFin h3⟩

/-- The fields of a word of format C (R81, R82). -/
theorem formatC_fields (opc : BitVec 4) (ry rcb rcr : Fin 8) (ro : Fin 4) (h v hs vs : Fin 2) :
    fieldRd (formatC opc ry rcb rcr ro h v hs vs) = ry ∧ fieldRs (formatC opc ry rcb rcr ro h v hs vs) = rcb
      ∧ fieldRcr (formatC opc ry rcb rcr ro h v hs vs) = rcr ∧ fieldRo (formatC opc ry rcb rcr ro h v hs vs) = ro
      ∧ fieldH (formatC opc ry rcb rcr ro h v hs vs) = h ∧ fieldV (formatC opc ry rcb rcr ro h v hs vs) = v
      ∧ fieldHs (formatC opc ry rcb rcr ro h v hs vs) = hs ∧ fieldVs (formatC opc ry rcb rcr ro h v hs vs) = vs := by
  have h1 : (formatC opc ry rcb rcr ro h v hs vs).extractLsb 27 25 = bits3 ry := by
    apply BitVec.eq_of_getLsbD_eq
    intro i hi
    have hi' : i < 3 := by omega
    interval_cases i <;> simp [formatC, place, BitVec.extractLsb]
  have h2 : (formatC opc ry rcb rcr ro h v hs vs).extractLsb 24 22 = bits3 rcb := by
    apply BitVec.eq_of_getLsbD_eq
    intro i hi
    have hi' : i < 3 := by omega
    interval_cases i <;> simp [formatC, place, BitVec.extractLsb]
  have h3 : (formatC opc ry rcb rcr ro h v hs vs).extractLsb 21 19 = bits3 rcr := by
    apply BitVec.eq_of_getLsbD_eq
    intro i hi
    have hi' : i < 3 := by omega
    interval_cases i <;> simp [formatC, place, BitVec.extractLsb]
  have h4 : (formatC opc ry rcb rcr ro h v hs vs).extractLsb 18 17 = bits2 ro := by
    apply BitVec.eq_of_getLsbD_eq
    intro i hi
    have hi' : i < 2 := by omega
    interval_cases i <;> simp [formatC, place, BitVec.extractLsb]
  have h5 : (formatC opc ry rcb rcr ro h v hs vs).extractLsb 16 16 = bits1 h := by
    apply BitVec.eq_of_getLsbD_eq
    intro i hi
    have hi' : i < 1 := by omega
    interval_cases i
    simp [formatC, place, BitVec.extractLsb]
  have h6 : (formatC opc ry rcb rcr ro h v hs vs).extractLsb 15 15 = bits1 v := by
    apply BitVec.eq_of_getLsbD_eq
    intro i hi
    have hi' : i < 1 := by omega
    interval_cases i
    simp [formatC, place, BitVec.extractLsb]
  have h7 : (formatC opc ry rcb rcr ro h v hs vs).extractLsb 14 14 = bits1 hs := by
    apply BitVec.eq_of_getLsbD_eq
    intro i hi
    have hi' : i < 1 := by omega
    interval_cases i
    simp [formatC, place, BitVec.extractLsb]
  have h8 : (formatC opc ry rcb rcr ro h v hs vs).extractLsb 13 13 = bits1 vs := by
    apply BitVec.eq_of_getLsbD_eq
    intro i hi
    have hi' : i < 1 := by omega
    interval_cases i
    simp [formatC, place, BitVec.extractLsb]
  exact ⟨congrArg BitVec.toFin h1, congrArg BitVec.toFin h2, congrArg BitVec.toFin h3, congrArg BitVec.toFin h4,
    congrArg BitVec.toFin h5, congrArg BitVec.toFin h6, congrArg BitVec.toFin h7, congrArg BitVec.toFin h8⟩

end Sys2Proof
end

