-- ==== Sys2Proof/Laws/Exec.lean ====
section
/-! SUPPORT. What an engine step and a command can do, said once; the narrowed results; the reads of the IDCT. -/

namespace Sys2Proof.Machine

/-- An engine step drops the command, records error 1, or runs the command (R202). -/
theorem engineStep_cases {s t : State} (h : engineStep s = .next t) :
    (s.err = true ∧ t = takeCommand s)
    ∨ (s.err = false ∧ (∃ e, decode s.pend = .error e) ∧ t = recordError .illegalCmd (takeCommand s))
    ∨ (s.err = false ∧ ∃ i, decode s.pend = .ok i ∧ exec i (takeCommand s) = .next t) := by
  unfold engineStep at h
  split at h
  · rename_i he
    simp only [Host.Outcome.next.injEq] at h
    exact .inl ⟨he, h.symm⟩
  · rename_i he
    have he' : s.err = false := by simpa using he
    cases hd : decode s.pend with
    | ok i =>
      rw [hd] at h
      exact .inr (.inr ⟨he', i, rfl, h⟩)
    | error e =>
      rw [hd] at h
      simp only [Host.Outcome.next.injEq] at h
      exact .inr (.inl ⟨he', ⟨e, rfl⟩, h.symm⟩)

/-- The next states a command can give: its failed check's error, or its stores and flags. -/
theorem exec_cases {i : Instr} {s t : State} (h : exec i s = .next t) :
    (∃ rd rs qt, (i = .deq rd rs qt ∨ i = .dqi rd rs qt) ∧ slotDefined s qt = false ∧ t = recordError .qtUndefined s)
    ∨ (∃ ry rcb rcr ro h v hs vs, i = .cconv ry rcb rcr ro h v hs vs ∧ offsetsLegal h v hs vs = false
        ∧ t = recordError .badSampling s)
    ∨ (i = .nop ∧ t = complete s)
    ∨ (∃ rd, i = .clr rd ∧ t = complete (storeBlk rd (fun _ => 0) s))
    ∨ (∃ rd g f, ((∃ rs qt, i = .deq rd rs qt) ∨ (∃ rs, i = .idct rd rs) ∨ ∃ rs qt, i = .dqi rd rs qt)
        ∧ t = nextDraw (complete (raiseSat f (storeBlk rd g s))))
    ∨ (∃ ro g, ((∃ ry rcb rcr h v hs vs, i = .cconv ry rcb rcr ro h v hs vs) ∨ ∃ ry, i = .gray ry ro)
        ∧ t = nextDraw (complete (storeOut ro g s))) := by
  cases i with
  | nop =>
    simp only [exec, execNop, Host.Outcome.next.injEq] at h
    exact .inr (.inr (.inl ⟨rfl, h.symm⟩))
  | deq rd rs qt =>
    simp only [exec, execDeq] at h
    split at h <;> simp only [Host.Outcome.next.injEq] at h
    · exact .inr (.inr (.inr (.inr (.inl ⟨rd, _, _, .inl ⟨rs, qt, rfl⟩, h.symm⟩))))
    · rename_i hs
      exact .inl ⟨rd, rs, qt, .inl rfl, by simpa using hs, h.symm⟩
  | idct rd rs =>
    simp only [exec, execIdct, Host.Outcome.next.injEq] at h
    exact .inr (.inr (.inr (.inr (.inl ⟨rd, _, _, .inr (.inl ⟨rs, rfl⟩), h.symm⟩))))
  | cconv ry rcb rcr ro hh v hs vs =>
    simp only [exec, execCconv] at h
    split at h <;> simp only [Host.Outcome.next.injEq] at h
    · exact .inr (.inr (.inr (.inr (.inr ⟨ro, _, .inl ⟨ry, rcb, rcr, hh, v, hs, vs, rfl⟩, h.symm⟩))))
    · rename_i hl
      exact .inr (.inl ⟨ry, rcb, rcr, ro, hh, v, hs, vs, rfl, by simpa using hl, h.symm⟩)
  | gray ry ro =>
    simp only [exec, execGray, Host.Outcome.next.injEq] at h
    exact .inr (.inr (.inr (.inr (.inr ⟨ro, _, .inr ⟨ry, rfl⟩, h.symm⟩))))
  | clr rd =>
    simp only [exec, execClr, Host.Outcome.next.injEq] at h
    exact .inr (.inr (.inr (.inl ⟨rd, rfl, h.symm⟩)))
  | dqi rd rs qt =>
    simp only [exec, execDqi] at h
    split at h <;> simp only [Host.Outcome.next.injEq] at h
    · exact .inr (.inr (.inr (.inr (.inl ⟨rd, _, _, .inr (.inr ⟨rs, qt, rfl⟩), h.symm⟩))))
    · rename_i hs
      exact .inl ⟨rd, rs, qt, .inr rfl, by simpa using hs, h.symm⟩

/-- A command runs to a next state whatever its operands hold. -/
theorem exec_next (i : Instr) (s : State) : ∃ t, exec i s = .next t := by
  cases i <;> simp only [exec, execNop, execDeq, execIdct, execCconv, execGray, execClr, execDqi] <;> (try split) <;>
    exact ⟨_, rfl⟩

/-- An engine step always has a next state. -/
theorem engineStep_next (s : State) : ∃ t, engineStep s = .next t := by
  unfold engineStep
  split
  · exact ⟨_, rfl⟩
  · split
    · exact exec_next _ _
    · exact ⟨_, rfl⟩

/-- The fields no command writes (R180, R181, R101, R133, R135, R153, R155). -/
theorem exec_keeps {i : Instr} {s t : State} (h : exec i s = .next t) :
    t.irqen = s.irqen ∧ t.busy = s.busy ∧ t.qtdef = s.qtdef ∧ t.pend = s.pend ∧ t.qt = s.qt ∧ t.inputs = s.inputs
      ∧ t.rdata = s.rdata := by
  rcases exec_cases h with ⟨_, _, _, _, _, rfl⟩ | ⟨_, _, _, _, _, _, _, _, _, _, rfl⟩ | ⟨_, rfl⟩ | ⟨_, _, rfl⟩
    | ⟨_, _, _, _, rfl⟩ | ⟨_, _, _, rfl⟩ <;> simp

/-- The fields no engine step writes, and BUSY is 0 after it (R202). -/
theorem engineStep_keeps {s t : State} (h : engineStep s = .next t) :
    t.irqen = s.irqen ∧ t.busy = false ∧ t.qtdef = s.qtdef ∧ t.pend = s.pend ∧ t.qt = s.qt ∧ t.inputs = s.inputs
      ∧ t.rdata = s.rdata := by
  rcases engineStep_cases h with ⟨_, rfl⟩ | ⟨_, _, rfl⟩ | ⟨_, i, _, h⟩
  · simp
  · simp
  · simpa using exec_keeps h

/-- A block saturates exactly when one of its sixty-four values overflows (R100, R122). -/
theorem satAny_iff (v : Nat → Int) : satAny v = true ↔ ∃ i < 64, ovf16 (v i) = true := by
  simp [satAny, Config.nElem]

theorem ovf16_iff {v : Int} : ovf16 v = true ↔ v > 32767 ∨ v < -32768 := by
  simp [ovf16]

theorem satAny_congr {v w : Nat → Int} (h : ∀ i < 64, v i = w i) : satAny v = satAny w := by
  rw [Bool.eq_iff_iff, satAny_iff, satAny_iff]
  exact exists_congr fun i => and_congr_right fun hi => by rw [h i hi]

/-- A value that fits 16 bits is read back as stored. -/
theorem toInt_ofInt16 {v : Int} (h1 : -32768 ≤ v) (h2 : v ≤ 32767) : (BitVec.ofInt 16 v).toInt = v := by
  rw [BitVec.toInt_ofInt]
  exact Int.bmod_eq_of_le (by omega) (by omega)

theorem sat16_bounds (v : Int) : -32768 ≤ sat16 v ∧ sat16 v ≤ 32767 := by
  unfold sat16
  omega

theorem clamp8_bounds (v : Int) : 0 ≤ clamp8 v ∧ clamp8 v ≤ 255 := by
  unfold clamp8
  omega

/-- A value that fits 8 bits unsigned is read back as stored. -/
theorem toNat_ofInt8 {v : Int} (h1 : 0 ≤ v) (h2 : v ≤ 255) : ((BitVec.ofInt 8 v).toNat : Int) = v := by
  rw [BitVec.toNat_ofInt]
  omega

/-- A saturated result is stored as itself, and so is a clamped one. -/
theorem toEntry_sat16 (v : Int) : (toEntry (sat16 v)).toInt = sat16 v :=
  toInt_ofInt16 (sat16_bounds v).1 (sat16_bounds v).2

theorem toChannel_clamp8 (v : Int) : ((toChannel (clamp8 v)).toNat : Int) = clamp8 v :=
  toNat_ofInt8 (clamp8_bounds v).1 (clamp8_bounds v).2

/-- The pass reads its eight inputs and nothing else (R136). -/
theorem idctPass_congr {a b : Nat → Int} (h : ∀ k < 8, a k = b k) (n : Nat) : idctPass a n = idctPass b n := by
  have hg : stageG a = stageG b := by
    funext k
    unfold stageG
    split <;> simp [h]
  unfold idctPass
  rw [hg]

/-- IDCT2's rounded value as two passes (R122). -/
theorem idctRounded_eq (x : Nat → Int) (i : Nat) :
    idctRounded x i
      = (idctPass (fun k => idctPass (fun j => x (8 * j + k) * 256) (i / 8)) (i % 8) + 128) / 256 := by
  have h : ∀ k < 8, columnPass x (8 * (i / 8) + k) = idctPass (fun j => x (8 * j + k) * 256) (i / 8) := by
    intro k hk
    have e1 : (8 * (i / 8) + k) % 8 = k := by omega
    have e2 : (8 * (i / 8) + k) / 8 = i / 8 := by omega
    unfold columnPass
    rw [e1, e2]
    rfl
  unfold idctRounded rowPass
  rw [idctPass_congr h]
  rfl

/-- IDCT2 reads its sixty-four inputs and nothing else (R136). -/
theorem idctRounded_congr {x y : Nat → Int} (h : ∀ i < 64, x i = y i) (i : Nat) :
    idctRounded x i = idctRounded y i := by
  unfold idctRounded rowPass
  rw [idctPass_congr fun k hk => ?_]
  unfold columnPass
  exact idctPass_congr (fun j hj => by rw [h _ (by omega)]) _

/-- The product of written entries (R100). -/
theorem dqProduct_of_written {s : State} {b : Fin 8} {t : Fin 4} {i : Nat} (hb : (blkEntry s b i).isSome = true)
    (ht : (qtEntry s t i).isSome = true) : dqProduct s b t i = blkVal s b i * qtVal s t i := by
  rw [dqProduct, readCoef_of_written hb, readQuant_of_written ht]

theorem blkVal_bounds (s : State) (b : Fin 8) (i : Nat) : -32768 ≤ blkVal s b i ∧ blkVal s b i ≤ 32767 :=
  entry_toInt_bounds _

theorem qtVal_bounds (s : State) (t : Fin 4) (i : Nat) : 0 ≤ qtVal s t i ∧ qtVal s t i ≤ 65535 :=
  entry_toNat_bounds _

/-- Entries with equal values are equal. -/
theorem blkEntry_eq_of_coef {s t : State} {b c : Fin 8} {i : Nat} {v : Int} (h : coef s b i = some v)
    (h' : coef t c i = some v) : blkEntry s b i = blkEntry t c i := by
  unfold coef at h h'
  cases hx : blkEntry s b i <;> cases hy : blkEntry t c i <;> simp [hx, hy] at h h' ⊢
  exact BitVec.eq_of_toInt_eq (h.trans h'.symm)

/-- The sampling check passes exactly when both offsets lie below their factors (R86). -/
theorem offsetsLegal_iff {h v hs vs : Fin 2} :
    offsetsLegal h v hs vs = true ↔ h.val < 1 + hs.val ∧ v.val < 1 + vs.val := by
  unfold offsetsLegal samplingFactor
  rw [Bool.and_eq_true, decide_eq_true_iff, decide_eq_true_iff]

/-- For legal offsets the chroma index names an entry of the block (R154). -/
theorem chromaIndex_lt {h v hs vs : Fin 2} {x y : Nat} (hx : x < 8) (hy : y < 8) (hl : offsetsLegal h v hs vs = true) :
    chromaIndex h v hs vs x y < 64 := by
  obtain ⟨hh, hv⟩ := offsetsLegal_iff.mp hl
  have h1 := hs.isLt
  have h2 := vs.isLt
  unfold chromaIndex samplingFactor
  rcases (by omega : hs.val = 0 ∨ hs.val = 1) with a | a <;> rcases (by omega : vs.val = 0 ∨ vs.val = 1) with b | b <;>
    rw [a] at hh <;> rw [b] at hv <;> rw [a, b] <;> omega

/-- A block that is written holds all the chroma a legal CCONV reads of it (R154). -/
theorem chromaWritten_of_blkWritten {s : State} {b : Fin 8} {h v hs vs : Fin 2} (hb : BlkWritten s b)
    (hl : offsetsLegal h v hs vs = true) : ChromaWritten s b h v hs vs :=
  fun _ hx _ hy => hb _ (chromaIndex_lt hx hy hl)

/-- The value of each entry a completed DEQ, IDCT or DQI has stored (R101, R133, R135). -/
theorem coef_of_stored {rd : Fin 8} {g : Nat → Int} {s : State} {sat : Bool} {i : Nat} (hi : i < 64) :
    coef (nextDraw (complete (raiseSat sat (storeBlk rd (fun i => toEntry (sat16 (g i))) s)))) rd i = some (sat16 (g i)) := by
  have h := coef_storeBlk_same rd (fun i => toEntry (sat16 (g i))) s hi
  rw [toEntry_sat16] at h
  exact h

end Sys2Proof.Machine
end

