-- ==== Sys2Proof/Tests/Slice0.lean ====
section
/-! SUPPORT. Tests. Every expected value is the spec's: a worked vector of spec/95_test_vectors.md or a table of the section
cited. Last come the witnesses: for each statement with hypotheses, concrete states and operands that meet them. -/

namespace Sys2Proof.Tests

open Sys2Proof.Machine

/-! Well-formedness: each check refuses an ill-formed term (R86, R87). -/

theorem test_refuses_buffer_8 : (AsmLine.clr 8).wellFormed = false ∧ isBuffer 8 = false := by decide

theorem test_refuses_slot_4 : (AsmLine.deq 0 0 4).wellFormed = false ∧ isSlot 4 = false := by decide

theorem test_refuses_output_4 : (AsmLine.gray 4 0).wellFormed = false ∧ isOutput 4 = false := by decide

theorem test_refuses_factor_3 : (AsmLine.cconv 0 0 4 5 0 0 3 1).wellFormed = false ∧ isFactor 0 = false := by decide

theorem test_refuses_offset_h : (AsmLine.cconv 0 0 4 5 1 0 1 1).wellFormed = false := by decide

theorem test_refuses_offset_v : (AsmLine.cconv 0 0 4 5 0 1 1 1).wellFormed = false := by decide

theorem test_refuses_pseudo_offset : (AsmLine.cconv420 0 0 4 5 2 0).wellFormed = false := by decide

/-- The word 0x31290000 of R90: legal as a word, refused by an assembler. -/
theorem test_refuses_command : (Instr.cconv 0 4 5 0 1 0 0 0).wellFormed = false := by decide

theorem test_accepts_command : (Instr.cconv 3 4 5 3 1 1 1 1).wellFormed = true := by decide

/-! Decoding and encoding: words written out from the fields of R81 and R82. -/

theorem test_decode_nop : decode 0b00000000000000000000000000000000 = .ok .nop := by decide

theorem test_decode_deq : decode 0b0001_101_011_10_00000000000000000000 = .ok (.deq 5 3 2) := by decide

theorem test_decode_idct : decode 0b0010_110_001_00_00000000000000000000 = .ok (.idct 6 1) := by decide

theorem test_decode_cconv :
    decode 0b0011_110_101_011_10_1_0_1_0_0000000000000 = .ok (.cconv 6 5 3 2 1 0 1 0) := by decide

theorem test_decode_cconv_v :
    decode 0b0011_001_010_100_01_0_1_0_1_0000000000000 = .ok (.cconv 1 2 4 1 0 1 0 1) := by decide

theorem test_decode_gray : decode 0b0100_101_000_000_11_0_0_0_0_0000000000000 = .ok (.gray 5 3) := by decide

theorem test_decode_clr : decode 0b0101_011_000_00_00000000000000000000 = .ok (.clr 3) := by decide

theorem test_decode_dqi : decode 0b0110_011_110_01_00000000000000000000 = .ok (.dqi 3 6 1) := by decide

/-- Illegal words of R90 and 95_test_vectors.md, by the reason. -/
theorem test_decode_illegal :
    decode 0x00000001 = .error .requiredZeroBit ∧ decode 0x12000001 = .error .requiredZeroBit
      ∧ decode 0x24500000 = .error .requiredZeroBit ∧ decode 0x30000001 = .error .requiredZeroBit
      ∧ decode 0x4C050000 = .error .requiredZeroBit ∧ decode 0x56400000 = .error .requiredZeroBit
      ∧ decode 0x70000000 = .error .reservedOpcode ∧ decode 0xFFFFFFFF = .error .reservedOpcode := by decide

/-- R90 and part 3 of 95_test_vectors.md, from the command to the word. -/
theorem test_encode :
    encode (.deq 7 7 3) = 0x1FF00000 ∧ encode (.idct 2 1) = 0x24400000 ∧ encode (.cconv 2 4 5 2 0 1 1 1) = 0x352CE000
      ∧ encode (.gray 6 2) = 0x4C040000 ∧ encode (.clr 5) = 0x5A000000 ∧ encode (.dqi 5 5 1) = 0x6B500000 := by decide

theorem test_tableWord : decodeTableWord 32 0x6B500000 = some (.dqi 5 5 1) ∧ decodeTableWord 32 0x80000000 = none := by
  decide

/-- The rows of R84 are disjoint: no word is two commands. -/
theorem test_rows_disjoint :
    opcodeTable.Pairwise (fun r q => r.mask &&& q.mask &&& (r.pattern ^^^ q.pattern) ≠ 0) := by decide

/-- `cconv420 o3, b3, b4, b5, 1, 1` is the word 0x372FE000 (R88, R90), and a line's text is R87's. -/
theorem test_assemble :
    assemble (.cconv420 3 3 4 5 1 1) = some 0x372FE000 ∧ assemble (.cconv 0 0 4 5 1 0 1 1) = none
      ∧ assemble (.word 0x31290000) = some 0x31290000 := by decide

theorem test_text_cconv : (AsmLine.cconv 1 1 4 5 1 0 2 1).text = "cconv o1, b1, b4, b5, 1, 0, 2, 1" := by decide +kernel

theorem test_text_word : (AsmLine.word 0x31290000).text = ".word 0x31290000" := by decide +kernel

/-! Commands: at most two each, on small states. -/

/-- The next state, if there is one. -/
def nextOf (o : Host.Outcome State Fault Refusal) : Option State :=
  match o with
  | .next t => some t
  | .fault _ => none
  | .refused _ => none

/-- Block buffer b written with numbers. -/
def filled (b : Fin 8) (g : Nat → Int) (s : State) : State := storeBlk b (fun i => BitVec.ofInt 16 (g i)) s

/-- Table slot t written with one number everywhere, and defined alone. -/
def tableOf (t : Fin 4) (v : Nat) (s : State) : State :=
  { s with qt := Memory.writeFrom s.qt (entryKey t 0) (entries fun _ => BitVec.ofNat 16 v)
           qtdef := BitVec.ofNat 4 (2 ^ t.val) }

/-- A block with one coefficient. -/
def dcOnly (v : Int) (i : Nat) : Int := if i = 0 then v else 0

/-- 95_test_vectors.md 2.6. -/
theorem test_nop : (nextOf (exec .nop { State.reset with irqen := true })).map (fun t => (t.done, irq t, t.sat))
    = some (true, true, false) := by decide

/-- 95_test_vectors.md 2.6: `clr b3`, first and last entry; b2 stays as it was. -/
theorem test_clr : (nextOf (exec (.clr 3) State.reset)).map (fun t => (coef t 3 0, coef t 3 63, coef t 2 63, t.done))
    = some (some 0, some 0, none, true) := by decide +kernel

/-- 95_test_vectors.md 2.1: `deq b1, b0, q0` on -5 with 16. -/
theorem test_deq :
    (nextOf (exec (.deq 1 0 0) (tableOf 0 16 (filled 0 (dcOnly (-5)) State.reset)))).map
      (fun t => (coef t 1 0, coef t 0 0, t.sat, t.done)) = some (some (-80), some (-5), false, true) := by decide +kernel

/-- 95_test_vectors.md 2.1: 128 * 256 saturates to 32767, in place. -/
theorem test_deq_saturates :
    (nextOf (exec (.deq 7 7 3) (tableOf 3 256 (filled 7 (dcOnly 128) State.reset)))).map
      (fun t => (coef t 7 0, coef t 7 1, t.sat)) = some (some 32767, some 0, true) := by decide +kernel

/-- 95_test_vectors.md 2.2: BLK[s][1] = 100, one row; its transpose, BLK[s][8] = 100, one column; a DC of -100. -/
theorem test_idct_orientation :
    (List.range 8).map (idct2 fun i => if i = 1 then 100 else 0) = [17, 15, 10, 3, -3, -10, -15, -17]
      ∧ (List.range 8).map (fun r => idct2 (fun i => if i = 8 then 100 else 0) (8 * r))
          = [17, 15, 10, 3, -3, -10, -15, -17]
      ∧ idct2 (dcOnly (-100)) 63 = -13 := by decide +kernel

/-- 95_test_vectors.md 2.2: all entries 32767, the second row, saturated, and SAT. -/
theorem test_idct_saturates :
    (List.range 8).map (fun k => idct2 (fun _ => 32767) (8 + k))
        = [-32768, 17012, -13489, 4745, -7290, 710, -4233, -1865]
      ∧ idct2Sat (fun _ => 32767) = true := by decide +kernel

/-- 95_test_vectors.md 2.3: 200 and -200 by a table of 200s, every row, with SAT from the dequantization alone. -/
theorem test_dqi_row :
    (List.range 8).map (idct2 fun i => sat16 ((if i = 0 then 200 else if i = 1 then -200 else 0) * 200))
      = [-1586, -720, 878, 2966, 5227, 7315, 8913, 9778] := by decide +kernel

/-- 95_test_vectors.md 1.3: an undefined slot records error 2 and writes nothing. -/
theorem test_dqi_undefined :
    (nextOf (exec (.dqi 2 0 1) (tableOf 0 16 (filled 0 (dcOnly 5) State.reset)))).map
      (fun t => (t.err, t.errcode, t.done, coef t 2 0)) = some (true, 2, false, none) := by decide +kernel

/-- 95_test_vectors.md 2.4: pixels with a clamp, a rounding tie and a two-product G; the chroma index of (5, 2) under five
samplings; error 3 for H = 1 with HS = 0. -/
theorem test_cconv_parts :
    (yccR 50 60, yccG 50 (-40) 60, yccB 50 (-40)) = (255, 149, 107)
      ∧ (yccR 0 (-91), yccG 0 0 (-91)) = (0, 193) ∧ (yccG 0 72 0, yccB 0 72) = (103, 255)
      ∧ [chromaIndex 0 0 0 0 5 2, chromaIndex 1 0 1 0 5 2, chromaIndex 0 1 0 1 5 2, chromaIndex 0 0 1 1 5 2,
          chromaIndex 1 1 1 1 5 2] = [21, 22, 45, 10, 46]
      ∧ (nextOf (exec (.cconv 0 4 5 0 1 0 0 0) State.reset)).map (fun t => (t.err, t.errcode, t.out))
          = some (true, 3, []) := by decide

/-- 95_test_vectors.md 2.4: `cconv o0, b0, b4, b5, 0, 0, 1, 1`, and the word its pixel reads as. -/
theorem test_cconv :
    (nextOf (exec (.cconv 0 4 5 0 0 0 0 0)
        (filled 5 (fun _ => 20) (filled 4 (fun _ => 0) (filled 0 (fun _ => 10) State.reset))))).map
      (fun t => (outPixel t 0 63, readWord 0x10FC t)) = some (some ⟨166, 124, 138⟩, 0x008A7CA6) := by decide +kernel

/-- 95_test_vectors.md 2.5: `gray o2, b6`, and `lw 0x1200`. -/
theorem test_gray :
    (nextOf (exec (.gray 6 2) (filled 6 (fun _ => 10) State.reset))).map (fun t => (outPixel t 2 63, readWord 0x1200 t))
      = some (some ⟨138, 138, 138⟩, 0x008A8A8A) := by decide +kernel

/-- 95_test_vectors.md 2.5: the edges of the clamp. -/
theorem test_gray_clamps :
    [-32768, -129, -128, -127, 126, 127, 128, 32767].map grayLevel = [0, 0, 0, 1, 254, 255, 255, 255] := by decide

/-! The bus, from 95_test_vectors.md 2.7. -/

theorem test_bus_id : readWord 0x000 (writeWord 0x000 0 State.reset) = 0x1DC70007 := by decide

theorem test_bus_qt : readWord 0x404 (writeWord 0x404 0x00012345 State.reset) = 0x00002345 := by decide

theorem test_bus_blk : readWord 0x800 (writeWord 0x800 0x00018000 State.reset) = 0xFFFF8000 := by decide

theorem test_bus_qtdef : readWord 0x014 (writeWord 0x014 0xFFFFFFFF State.reset) = 0x0000000F := by decide

theorem test_bus_soft_reset : readWord 0x004 (writeWord 0x004 0x3 { State.reset with irqen := true }) = 0 := by decide

theorem test_bus_bad_write :
    (hostWrite 0x800 2 7 State.reset).errcode = 6 ∧ (hostWrite 0x800 2 7 State.reset).blk = [] := by decide

theorem test_bus_bad_read : (hostRead 0x802 4 State.reset).rdata = 0 ∧ (hostRead 0x802 4 State.reset).errcode = 6 := by
  decide

theorem test_bus_busy :
    (writeWord 0x800 5 (acceptCommand 0 State.reset)).errcode = 5
      ∧ (writeWord 0x010 0 (acceptCommand 0 State.reset)).errcode = 4
      ∧ readWord 0x008 (acceptCommand 0 State.reset) = 1 := by decide

theorem test_bus_w1c :
    irq (writeStatus 0x2 { State.reset with done := true, err := true, errcode := 2, irqen := true }) = true
      ∧ irq (writeStatus 0x6 { State.reset with done := true, err := true, errcode := 2, irqen := true }) = false := by decide

/-- The last words of each window (R52). -/
theorem test_region_ends :
    [regionAt 0x400, regionAt 0x7FC, regionAt 0x800, regionAt 0xFFC, regionAt 0x1000, regionAt 0x13FC, regionAt 0x1400,
      regionAt 0x3FC, regionAt 0x018]
      = [.qt 0 0, .qt 3 63, .blk 0 0, .blk 7 63, .out 0 0, .out 3 63, .reserved, .reserved, .reserved] := by decide

/-- The interface's word runs as the first instruction after reset. -/
theorem test_withFetchWord :
    (nextOf (step (State.reset.withFetchWord 32 0x56000000))).map (fun t => (coef t 3 7, t.done, t.busy))
      = some (some 0, true, false) := by decide +kernel

/-- Program 4 of 95_test_vectors.md, outcome (b): the engine step drops a command accepted before an error. -/
theorem test_dropped :
    (nextOf (step (recordError .cmdWhileBusy (acceptCommand 0 State.reset)))).map (fun t => (t.done, statusWord t))
      = some (false, 4) := by decide

/-! Witnesses: concrete states and operands that meet each statement's hypotheses, all together, at boundary values. -/

/-- A word accepted and the engine next. -/
def pendingWord (w : Word) : State := { State.reset with pend := w, busy := true }

/-- A turn next. -/
def withTurn (e : Event) (s : State) : State := { s with inputs := [e] }

/-- The host writes next, or reads next. -/
theorem writesNext_withTurn (s : State) (off : Nat) (w : Word) (h : off % 4 = 0 ∧ off < 0x2000) :
    WritesNext (withTurn (sw off w) s) off w := ⟨h.1, h.2, rfl⟩

theorem readsNext_withTurn (s : State) (off : Nat) (h : off % 4 = 0 ∧ off < 0x2000) :
    ReadsNext (withTurn (lw off) s) off := ⟨h.1, h.2, rfl⟩

/-- EncodeOfDecodeIsTheWord, FieldsAreTheNumbersOfTheirBits. -/
theorem witness_decodes : ∃ (w : Word) (i : Instr), decode w = .ok i := ⟨0x372FE000, .cconv 3 4 5 3 1 1 1 1, by decide⟩

/-- IllegalWordRecordsErrorOne: a reserved opcode, the lowest, and a required-zero bit. -/
theorem witness_illegal :
    (EngineNext (pendingWord 0x70000000) = true ∧ (pendingWord 0x70000000).err = false
      ∧ (∀ r ∈ opcodeTable, (pendingWord 0x70000000).pend &&& r.mask ≠ r.pattern)
      ∧ 7 ≤ (0x70000000 : Word).toNat / 2 ^ 28)
    ∧ ∀ r ∈ opcodeTable, (pendingWord 0x00000001).pend &&& r.mask ≠ r.pattern := by decide

/-- AssemblerWritesExactlyTheWellFormedCommands. -/
theorem witness_assembles :
    assemble (.cconv422 1 1 4 5 1) = some 0x332B4000 ∧ (Instr.cconv 1 4 5 1 1 0 1 0).wellFormed = true := by decide

/-- StepRunsTheDecodedCommand, with an empty script and with the engine's turn in it. -/
theorem witness_pending :
    (EngineNext (pendingWord 0x56000000) = true ∧ EngineNext (withTurn .engine (pendingWord 0x56000000)) = true)
      ∧ (pendingWord 0x56000000).err = false ∧ decode (pendingWord 0x56000000).pend = .ok (.clr 3) := by decide

/-- EngineTurnsThatRunNoCommand. -/
theorem witness_no_command :
    (EngineNext (recordError .cmdWhileBusy (pendingWord 0)) = true ∧ (recordError .cmdWhileBusy (pendingWord 0)).err = true)
      ∧ State.reset.busy = false ∧ State.reset.inputs = []
      ∧ (withTurn .engine State.reset).inputs.head? = some .engine := by decide

/-- CmdWriteIssuesTheWord: each of its three clauses. -/
theorem witness_cmd_write :
    (WritesNext (withTurn (sw 0x010 0x70000000) (pendingWord 0)) 0x010 0x70000000
      ∧ (withTurn (sw 0x010 0x70000000) (pendingWord 0)).busy = true)
    ∧ (WritesNext (withTurn (sw 0x010 0) (recordError .badAccess State.reset)) 0x010 0
      ∧ (recordError .badAccess State.reset).busy = false ∧ (recordError .badAccess State.reset).err = true)
    ∧ WritesNext (withTurn (sw 0x010 0) State.reset) 0x010 0 ∧ State.reset.busy = false ∧ State.reset.err = false :=
  ⟨⟨⟨rfl, by decide, rfl⟩, rfl⟩, ⟨⟨rfl, by decide, rfl⟩, rfl, rfl⟩, ⟨rfl, by decide, rfl⟩, rfl, rfl⟩

/-- DoneIsSetOnlyByACompletedCommand: a NOP's engine step, and an accepted CMD write. -/
theorem witness_done :
    (∃ t, step (pendingWord 0) = .next t ∧ (pendingWord 0).done = false ∧ t.done = true)
    ∧ ∃ t, step (withTurn (sw 0x010 0) State.reset) = .next t ∧ State.reset.busy = false ∧ t.busy = true :=
  ⟨⟨_, rfl, rfl, rfl⟩, ⟨_, step_of_writesNext (writesNext_withTurn _ _ _ (by decide)), rfl, rfl⟩⟩

/-- OperandsStayFixedWhilePending: a write of the BLK window while a command is pending. -/
theorem witness_operands :
    ∃ s t, step s = .next t ∧ s.busy = true ∧ EngineNext s = false ∧ ¬ResetNext s := by
  refine ⟨withTurn (sw 0x800 5) (pendingWord 0), _, step_of_writesNext (writesNext_withTurn _ _ _ (by decide)), rfl, rfl, ?_⟩
  rintro (h | ⟨v, _, _, _, h⟩) <;> simp [withTurn, sw] at h

/-- EveryScriptEndsWithTheBlockIdle: a script at both ends of the aperture. -/
theorem witness_script :
    ∀ e ∈ ({ State.reset with inputs := [lw 0x000, sw 0x010 0, .engine, lw 0x1FFC, .hardReset] } : State).inputs,
      e.inAperture := by
  simp [lw, sw, Event.inAperture, Config.apertureSize]

/-- WaitEndsWhenTheEngineStepIsTaken: two polls before the engine step. -/
theorem witness_wait :
    ({ pendingWord 0 with inputs := waitPolls 2 ++ [lw 0x000] } : State).busy = true
      ∧ ({ pendingWord 0 with inputs := waitPolls 2 ++ [lw 0x000] } : State).inputs = waitPolls 2 ++ [lw 0x000] :=
  ⟨rfl, rfl⟩

/-- StepStopsExactlyOutsideTheAperture: the first address past the aperture, and the last in it. -/
theorem witness_aperture :
    (∃ e, (withTurn (lw 0x2000) State.reset).inputs.head? = some e ∧ ¬e.inAperture)
      ∧ ∀ e, (withTurn (.read (Config.base + 0x1FFF) 1) State.reset).inputs.head? = some e → e.inAperture := by
  refine ⟨⟨_, rfl, by simp [lw, Event.inAperture, Config.apertureSize]⟩, ?_⟩
  rintro e h
  cases h
  simp [Event.inAperture, Config.apertureSize]

/-- ErrorsHaveTheirCause, ErrorsArePrecise: a step for each engine error 1, 2, 3. -/
theorem witness_engine_errors :
    (nextOf (step (pendingWord 0x70000000))).map (fun t => (t.err, t.errcode)) = some (true, 1)
      ∧ (nextOf (step (pendingWord 0x12200000))).map (fun t => (t.err, t.errcode)) = some (true, 2)
      ∧ (nextOf (step (pendingWord 0x31290000))).map (fun t => (t.err, t.errcode)) = some (true, 3)
      ∧ (pendingWord 0x70000000).err = false := by decide

/-- ErrorsHaveTheirCause, ErrorsArePrecise: a step for each host error 4, 5, 6. -/
theorem witness_host_errors :
    (∃ t, step (withTurn (sw 0x010 0) (pendingWord 0)) = .next t ∧ t.err = true ∧ t.errcode = 4)
      ∧ (∃ t, step (withTurn (sw 0x014 1) (pendingWord 0)) = .next t ∧ t.err = true ∧ t.errcode = 5)
      ∧ (∃ t, step (withTurn (.read (Config.base + 0x1FFE) 2) State.reset) = .next t ∧ t.err = true ∧ t.errcode = 6)
      ∧ (pendingWord 0).err = false ∧ EngineNext (withTurn (sw 0x010 0) (pendingWord 0)) = false := by
  refine ⟨⟨_, step_of_writesNext (writesNext_withTurn _ _ _ (by decide)), rfl, rfl⟩,
    ⟨_, step_of_writesNext (writesNext_withTurn _ _ _ (by decide)), rfl, rfl⟩, ?_, rfl, rfl⟩
  have h : apertureOffset (Config.base + 0x1FFE) = some 0x1FFE := apertureOffset_add (by decide)
  simp [step, withTurn, turn, atAperture, h, hostRead, goodAccess, ErrorCode.code, State.reset]

/-- FirstErrorCodeIsKept: a second error, and the return from an error. -/
theorem witness_first_error :
    (∃ s t, step s = .next t ∧ s.err = true ∧ t.err = true) ∧ ∃ s t, step s = .next t ∧ s.err = true ∧ t.err = false :=
  ⟨⟨withTurn (sw 0x010 0) (recordError .badAccess (pendingWord 0)), _,
      step_of_writesNext (writesNext_withTurn _ _ _ (by decide)), rfl, rfl⟩,
    ⟨withTurn (sw 0x008 4) (recordError .badAccess State.reset), _,
      step_of_writesNext (writesNext_withTurn _ _ _ (by decide)), rfl, rfl⟩⟩

/-- FailedChecksRecordTheirErrors: DEQ and DQI on an undefined slot, CCONV with H, then V, not below its factor. -/
theorem witness_checks :
    (EngineNext (pendingWord 0x12200000) = true ∧ slotDefined (pendingWord 0x12200000) 2 = false
      ∧ decode (pendingWord 0x12200000).pend = .ok (.deq 1 0 2) ∧ decode (0x64100000 : Word) = .ok (.dqi 2 0 1))
    ∧ (samplingFactor 0 ≤ (1 : Fin 2).val ∧ decode (0x31290000 : Word) = .ok (.cconv 0 4 5 0 1 0 0 0)
      ∧ decode (0x31288000 : Word) = .ok (.cconv 0 4 5 0 0 1 0 0)) := by decide

/-- ReturnFromErrorAcceptsCommandsAgain. -/
theorem witness_return :
    let s : State := { recordError .qtUndefined State.reset with inputs := [sw 0x008 4, sw 0x010 0] }
    (4 : Word).getLsbD 2 = true ∧ s.busy = false ∧ WritesNext s 0x008 4 ∧ WritesNext (turnTaken s) 0x010 0 :=
  ⟨by decide, rfl, ⟨rfl, by decide, rfl⟩, ⟨rfl, by decide, rfl⟩⟩

/-- HardwareResetFromAnyState, SoftResetKeepsTheRams: with a command pending. -/
theorem witness_resets :
    (withTurn .hardReset (pendingWord 0)).inputs.head? = some .hardReset
      ∧ (3 : Word).getLsbD 0 = true ∧ WritesNext (withTurn (sw 0x004 3) (pendingWord 0)) 0x004 3 :=
  ⟨rfl, by decide, rfl, by decide, rfl⟩

/-- EveryStepKeepsTheInvariant: a state with written entries and a command pending. -/
theorem witness_invariant :
    (storeBlk 7 (fun _ => 1) (pendingWord 0)).Inv ∧ ∃ t, step (storeBlk 7 (fun _ => 1) (pendingWord 0)) = .next t := by
  refine ⟨⟨rfl, wf_storeBlk _ _ _ rfl, rfl, ?_, ?_, ?_⟩, _, rfl⟩ <;> simp [pendingWord, State.reset]

/-- RegisterReads, ReadsChangeNothingAndDataWritesAreIdempotent: each register's read. -/
theorem witness_register_reads (s : State) :
    ∀ off ∈ [0x000, 0x004, 0x008, 0x00C, 0x010, 0x014], ∃ t, ReadsNext (withTurn (lw off) s) off ∧ t = s := by
  intro off h
  exact ⟨s, readsNext_withTurn s off (by revert off; decide), rfl⟩

/-- ReadsChangeNothingAndDataWritesAreIdempotent: the ends of the written offsets, and IRQEN without a reset. -/
theorem witness_data_writes :
    (0x400 ≤ 0x400 ∧ 0x400 < 0x1000) ∧ (0x400 ≤ 0xFFC ∧ 0xFFC < 0x1000) ∧ (2 : Word).getLsbD 0 = false := by decide

/-- RegisterWrites: a write of each register. -/
theorem witness_register_writes :
    (WritesNext (withTurn (sw 0x004 2) State.reset) 0x004 2 ∧ (2 : Word).getLsbD 0 = false)
      ∧ WritesNext (withTurn (sw 0x008 0xE) (pendingWord 0)) 0x008 0xE
      ∧ WritesNext (withTurn (sw 0x014 0xF) State.reset) 0x014 0xF ∧ State.reset.busy = false :=
  ⟨⟨writesNext_withTurn _ _ _ (by decide), by decide⟩, writesNext_withTurn _ _ _ (by decide),
    writesNext_withTurn _ _ _ (by decide), rfl⟩

/-- WritesWithoutEffect, ReservedOffsetsAndBits: the ends of each range. -/
theorem witness_no_effect (w : Word) (s : State) :
    ∀ off ∈ [0x000, 0x00C, 0x018, 0x3FC, 0x1000, 0x13FC, 0x1400, 0x1FFC],
      WritesNext (withTurn (sw off w) s) off w ∧ ReadsNext (withTurn (lw off) s) off := by
  intro off h
  have g : off % 4 = 0 ∧ off < 0x2000 := by revert off; decide
  exact ⟨writesNext_withTurn s off w g, readsNext_withTurn s off g⟩

/-- BadAccessesRecordErrorSix: a narrow access, a wide one and a misaligned one, at the ends of the aperture. -/
theorem witness_bad_access :
    (0 < 1 ∧ 0x1FFF + 1 ≤ 0x2000 ∧ (1 ≠ 4 ∨ 0x1FFF % 4 ≠ 0)) ∧ (0 < 8 ∧ 0x1FF8 + 8 ≤ 0x2000 ∧ (8 ≠ 4 ∨ 0x1FF8 % 4 ≠ 0))
      ∧ (0 < 4 ∧ 2 + 4 ≤ 0x2000 ∧ (4 ≠ 4 ∨ 2 % 4 ≠ 0))
      ∧ (withTurn (.read (Config.base + 2) 4) State.reset).inputs.head? = some (.read (Config.base + 2) 4)
      ∧ (withTurn (.write (Config.base + 2) 4 7) State.reset).inputs.head? = some (.write (Config.base + 2) 4 7) :=
  ⟨by decide, by decide, by decide, rfl, rfl⟩

/-- StraddlingAccessesAreDecidedByTheirFirstAddress: eight bytes at the last word, and none at all. -/
theorem witness_straddling :
    (0x1FFC < 0x2000 ∧ (0x2000 < 0x1FFC + 8 ∨ 8 = 0)) ∧ (0 < 0x2000 ∧ (0x2000 < 0 + 0 ∨ 0 = 0))
      ∧ (withTurn (.read (Config.base + 0x1FFC) 8) State.reset).inputs.head? = some (.read (Config.base + 0x1FFC) 8)
      ∧ (withTurn (.write (Config.base + 0) 0 7) State.reset).inputs.head? = some (.write (Config.base + 0) 0 7) :=
  ⟨by decide, by decide, rfl, rfl⟩

/-- QtWindow, BlkWindow, OutWindow: the last entry of each, written and read, with BUSY = 0. -/
theorem witness_windows :
    (WritesNext (withTurn (sw 0x7FC 1) State.reset) (0x400 + 0x100 * 3 + 4 * 63) 1
      ∧ qtEntry (writeQtEntry 3 63 1 State.reset) 3 63 = some 1
      ∧ ReadsNext (withTurn (lw 0x7FC) (writeQtEntry 3 63 1 State.reset)) (0x400 + 0x100 * 3 + 4 * 63))
    ∧ (WritesNext (withTurn (sw 0xFFC 1) State.reset) (0x800 + 0x100 * 7 + 4 * 63) 1
      ∧ blkEntry (writeBlkEntry 7 63 1 State.reset) 7 63 = some 1
      ∧ ReadsNext (withTurn (lw 0xFFC) (writeBlkEntry 7 63 1 State.reset)) (0x800 + 0x100 * 7 + 4 * 63))
    ∧ WritesNext (withTurn (sw 0x13FC 1) State.reset) (0x1000 + 0x100 * 3 + 4 * 63) 1
      ∧ outPixel { State.reset with out := [(255, ⟨1, 2, 3⟩)] } 3 63 = some ⟨1, 2, 3⟩
      ∧ ReadsNext (withTurn (lw 0x13FC) { State.reset with out := [(255, ⟨1, 2, 3⟩)] }) (0x1000 + 0x100 * 3 + 4 * 63) :=
  ⟨⟨⟨rfl, by decide, rfl⟩, rfl, ⟨rfl, by decide, rfl⟩⟩, ⟨⟨rfl, by decide, rfl⟩, rfl, ⟨rfl, by decide, rfl⟩⟩,
    ⟨rfl, by decide, rfl⟩, rfl, ⟨rfl, by decide, rfl⟩⟩

/-- The first entry of each window, and UnwrittenEntriesReadAsFreeValues. -/
theorem witness_unwritten :
    (qtEntry State.reset 0 0 = none ∧ ReadsNext (withTurn (lw 0x400) State.reset) (0x400 + 0x100 * 0 + 4 * 0))
      ∧ (blkEntry State.reset 0 0 = none ∧ ReadsNext (withTurn (lw 0x800) State.reset) (0x800 + 0x100 * 0 + 4 * 0))
      ∧ outPixel State.reset 0 0 = none ∧ ReadsNext (withTurn (lw 0x1000) State.reset) (0x1000 + 0x100 * 0 + 4 * 0) :=
  ⟨⟨rfl, rfl, by decide, rfl⟩, ⟨rfl, rfl, by decide, rfl⟩, rfl, rfl, by decide, rfl⟩

/-- AccessesWhileBusy: the ends of each range. -/
theorem witness_busy_accesses :
    (WritesNext (withTurn (sw 0x014 1) (pendingWord 0)) 0x014 1 ∧ WritesNext (withTurn (sw 0xFFC 1) (pendingWord 0)) 0xFFC 1)
      ∧ (ReadsNext (withTurn (lw 0x400) (pendingWord 0)) 0x400 ∧ ReadsNext (withTurn (lw 0x13FC) (pendingWord 0)) 0x13FC)
      ∧ (pendingWord 0).busy = true :=
  ⟨⟨⟨rfl, by decide, rfl⟩, ⟨rfl, by decide, rfl⟩⟩, ⟨⟨rfl, by decide, rfl⟩, ⟨rfl, by decide, rfl⟩⟩, rfl⟩

/-- InterruptIsDoneOrErrWhileEnabled. -/
theorem witness_irq : WritesNext (withTurn (sw 0x008 0x6) { State.reset with irqen := true, done := true }) 0x008 0x6 :=
  writesNext_withTurn _ _ _ (by decide)

/-- TablesAreWrittenByTheHostOnly: a write of QT, and a command that leaves it. -/
theorem witness_tables :
    (∃ t, step (withTurn (sw 0x400 1) State.reset) = .next t ∧ t.qt ≠ State.reset.qt)
      ∧ (∃ t, step (pendingWord 0) = .next t ∧ EngineNext (pendingWord 0) = true) :=
  ⟨⟨_, step_of_writesNext (writesNext_withTurn _ _ _ (by decide)), by decide⟩, _, rfl, rfl⟩

/-- A block store is a change of a RAM with nothing listed. -/
theorem blk_storeBlk_ne (b : Fin 8) (g : Nat → Entry) (s : State) (h : s.blk = []) : (storeBlk b g s).blk ≠ s.blk := by
  intro e
  have h1 := blkEntry_storeBlk_same b g s (i := 0) (by decide)
  rw [blkEntry_congr e, blkEntry, h] at h1
  simp [Memory.read] at h1

theorem out_storeOut_ne (o : Fin 4) (g : Nat → Pixel) (s : State) (h : s.out = []) : (storeOut o g s).out ≠ s.out := by
  intro e
  have h1 := outPixel_storeOut_same o g s (i := 0) (by decide)
  rw [outPixel_congr e, outPixel, h] at h1
  simp [Memory.read] at h1

/-- OutIsWrittenByColourCommandsOnly: the engine step of `gray o2, b6`. -/
theorem witness_out : ∃ t, step (pendingWord 0x4C040000) = .next t ∧ t.out ≠ (pendingWord 0x4C040000).out :=
  ⟨_, rfl, out_storeOut_ne 2 _ (takeCommand (pendingWord 0x4C040000)) rfl⟩

/-- BlockBuffersAreWrittenByTheirCommandsOnly: the engine step of `clr b3`, and a write of the BLK window. -/
theorem witness_blk :
    (∃ t, step (pendingWord 0x56000000) = .next t ∧ t.blk ≠ (pendingWord 0x56000000).blk)
      ∧ ∃ t, step (withTurn (sw 0xFFC 1) State.reset) = .next t ∧ t.blk ≠ State.reset.blk :=
  ⟨⟨_, rfl, blk_storeBlk_ne 3 _ (takeCommand (pendingWord 0x56000000)) rfl⟩,
    _, step_of_writesNext (writesNext_withTurn _ _ _ (by decide)), by decide⟩

/-- SatIsSticky: SAT cleared by the host, and set by `deq b0, b0, q0` on 128 and 256. -/
theorem witness_sat :
    (∃ t, step (withTurn (sw 0x008 8) { State.reset with sat := true }) = .next t ∧ t.sat = false)
      ∧ (nextOf (step (tableOf 0 256 (filled 0 (dcOnly 128) (pendingWord 0x10000000))))).map (·.sat) = some true
      ∧ (pendingWord 0x10000000).sat = false :=
  ⟨⟨_, step_of_writesNext (writesNext_withTurn _ _ _ (by decide)), rfl⟩, by decide +kernel, rfl⟩

/-- EveryCommandCompletesWhereItsCheckPasses: each command, on entries never written. -/
theorem witness_runs :
    Runs .nop State.reset ∧ Runs (.deq 1 0 3) { State.reset with qtdef := 8 } ∧ Runs (.idct 7 7) State.reset
      ∧ Runs (.cconv 3 4 5 3 1 1 1 1) State.reset ∧ Runs (.gray 6 2) State.reset ∧ Runs (.clr 3) State.reset
      ∧ Runs (.dqi 2 0 0) { State.reset with qtdef := 1 } := by
  simp only [Runs, true_and]
  decide

/-- A table slot filled and defined, and all its entries. -/
theorem slotDefined_tableOf (v : Nat) (s : State) : slotDefined (tableOf 3 v s) 3 = true := by
  change (BitVec.ofNat 4 (2 ^ 3)).getLsbD 3 = true
  decide

theorem qtEntry_tableOf (t : Fin 4) (v : Nat) (s : State) {i : Nat} (h : i < 64) :
    qtEntry (tableOf t v s) t i = some (BitVec.ofNat 16 v) := by
  have h' : 64 * t.val ≤ 64 * t.val + i ∧ 64 * t.val + i < 64 * t.val + 64 := by omega
  have h'' : 64 * t.val + i - 64 * t.val = i := by omega
  simp only [qtEntry, tableOf, entryKey, Config.nElem, Memory.read_writeFrom, entries_length, Nat.add_zero, if_pos h', h'']
  exact entries_getElem? _ h

theorem qtWritten_tableOf (t : Fin 4) (v : Nat) (s : State) : QtWritten (tableOf t v s) t := by
  intro i hi
  rw [qtEntry_tableOf t v s hi]
  rfl

/-- DeqDequantizesTheBlock, DqiDequantizesAndTransforms (whose one hypothesis is the first part), DqiIsDeqThenIdct, and with
ones DeqByOnesCopiesTheBlock. -/
theorem witness_dequantize (v : Nat) (g : Nat → Int) (s : State) :
    slotDefined (tableOf 3 v (filled 7 g s)) 3 = true ∧ BlkWritten (tableOf 3 v (filled 7 g s)) 7
      ∧ QtWritten (tableOf 3 v (filled 7 g s)) 3 ∧ ∀ i < 64, qtEntry (tableOf 3 1 (filled 7 g s)) 3 i = some 1 :=
  ⟨slotDefined_tableOf v _, blkWritten_storeBlk 7 (fun i => BitVec.ofInt 16 (g i)) s, qtWritten_tableOf 3 v _,
    fun _ hi => qtEntry_tableOf 3 1 _ hi⟩

/-- DeqIsExactWhereUnwrittenEntriesCannotMatter: an entry with both operands written that overflows, and entries with a
written operand of 0 and the other never written; and a table of 0s and 1s over a block never written. -/
theorem witness_deq_unwritten :
    (∀ i < 64, qtEntry (tableOf 3 1 State.reset) 3 i = some 0 ∨ qtEntry (tableOf 3 1 State.reset) 3 i = some 1)
    ∧ let s : State := { State.reset with qtdef := 1, qt := [(0, 0), (63, 256)], blk := [(1, 0), (63, 128)] }
      slotDefined s 0 = true ∧ blkEntry s 0 63 = some 128 ∧ qtEntry s 0 63 = some 256
        ∧ ovf16 ((128 : Entry).toInt * (256 : Entry).toNat) = true
        ∧ (qtEntry s 0 0 = some 0 ∧ blkEntry s 0 0 = none) ∧ blkEntry s 0 1 = some 0 ∧ qtEntry s 0 1 = none :=
  ⟨fun _ hi => .inr (qtEntry_tableOf 3 1 State.reset hi), by decide⟩

/-- IdctReadsItsSourceOnly: two states with one source and other registers. -/
theorem witness_idct (g : Nat → Int) :
    BlkWritten (filled 1 g State.reset) 1
      ∧ (∀ i < 64, blkEntry (filled 1 g State.reset) 1 i = blkEntry (filled 2 g (pendingWord 7)) 2 i)
      ∧ (∃ t, exec (.idct 1 1) (filled 1 g State.reset) = .next t)
      ∧ ∃ t, exec (.idct 5 2) (filled 2 g (pendingWord 7)) = .next t := by
  refine ⟨blkWritten_storeBlk _ _ _, ?_, exec_next _ _, exec_next _ _⟩
  intro i hi
  have h1 := blkEntry_storeBlk_same 1 (fun i => BitVec.ofInt 16 (g i)) State.reset hi
  have h2 := blkEntry_storeBlk_same 2 (fun i => BitVec.ofInt 16 (g i)) (pendingWord 7) hi
  exact h1.trans h2.symm

/-- IdctOfADcOnlyBlockIsFlat, IdctFitsTheDatapath: the extreme DC block. -/
theorem witness_idct_blocks :
    (∀ k < 64, k ≠ 0 → dcOnly (-32768) k = 0) ∧ (∀ k < 64, dcOnly 0 k = 0)
      ∧ ∀ k < 64, fitsSigned 16 (dcOnly (-32768) k) ∧ fitsSigned 16 (dcOnly 32767 k) := by
  unfold fitsSigned
  decide

/-- CconvConvertsTheSubBlock, CconvOrderDoesNotMatter, ChromaIndexFollowsTheSampling: 2x2 luma, the last sub-block and the
first, four buffers written. -/
theorem witness_cconv (g : Nat → Int) :
    (1 : Fin 2).val < 1 + (1 : Fin 2).val ∧ offsetsLegal 1 1 1 1 = true ∧ offsetsLegal 0 0 1 1 = true
      ∧ (0 : Fin 4) ≠ 3
      ∧ BlkWritten (filled 0 g (filled 3 g (filled 4 g (filled 5 g State.reset)))) 0
      ∧ BlkWritten (filled 0 g (filled 3 g (filled 4 g (filled 5 g State.reset)))) 3
      ∧ ChromaWritten (filled 0 g (filled 3 g (filled 4 g (filled 5 g State.reset)))) 4 0 0 1 1
      ∧ ChromaWritten (filled 0 g (filled 3 g (filled 4 g (filled 5 g State.reset)))) 4 1 1 1 1
      ∧ ChromaWritten (filled 0 g (filled 3 g (filled 4 g (filled 5 g State.reset)))) 5 0 0 1 1
      ∧ ChromaWritten (filled 0 g (filled 3 g (filled 4 g (filled 5 g State.reset)))) 5 1 1 1 1 := by
  have h5 : BlkWritten (filled 0 g (filled 3 g (filled 4 g (filled 5 g State.reset)))) 5 :=
    blkWritten_storeBlk_of _ (blkWritten_storeBlk_of _ (blkWritten_storeBlk_of _ (blkWritten_storeBlk _ _ _)))
  have h4 : BlkWritten (filled 0 g (filled 3 g (filled 4 g (filled 5 g State.reset)))) 4 :=
    blkWritten_storeBlk_of _ (blkWritten_storeBlk_of _ (blkWritten_storeBlk _ _ _))
  have h3 : BlkWritten (filled 0 g (filled 3 g (filled 4 g (filled 5 g State.reset)))) 3 :=
    blkWritten_storeBlk_of _ (blkWritten_storeBlk _ _ _)
  have first : offsetsLegal 0 0 1 1 = true := by decide
  have last : offsetsLegal 1 1 1 1 = true := by decide
  exact ⟨by decide, last, first, by decide, blkWritten_storeBlk _ _ _, h3, chromaWritten_of_blkWritten h4 first,
    chromaWritten_of_blkWritten h4 last, chromaWritten_of_blkWritten h5 first, chromaWritten_of_blkWritten h5 last⟩

/-- CconvOrderDoesNotMatter: the half of a chroma block that the first sub-block of 2x1 luma reads is enough. -/
theorem witness_chroma_half : ChromaWritten
    { State.reset with blk := (List.range 64).filterMap fun k => if k % 8 < 4 then some (k, 7) else none } 0 0 0 1 0 := by
  unfold ChromaWritten
  decide +kernel

/-- GrayIsCconvWithZeroChroma: a cleared block. -/
theorem witness_zero_chroma (s : State) : ∀ i < 64, blkEntry (filled 4 (fun _ => 0) s) 4 i = some 0 :=
  fun _ hi => blkEntry_storeBlk_same 4 (fun _ => BitVec.ofInt 16 0) s hi

end Sys2Proof.Tests
end

section
/-! SUPPORT. What a legal write and a step can do, effect by effect: what the proofs of the state's statements
cite. -/

namespace Sys2Proof.Machine

/-- A CTRL write is a soft reset or sets IRQEN (R22). -/
theorem writeCtrl_of_srst {v : Word} (h : v.getLsbD 0 = true) (s : State) : writeCtrl v s = softReset s := if_pos h

theorem writeCtrl_of_not_srst {v : Word} (h : v.getLsbD 0 = false) (s : State) :
    writeCtrl v s = { s with irqen := v.getLsbD 1 } :=
  if_neg (by rw [h]; exact Bool.false_ne_true)

/-- A STATUS write, flag by flag (R23, R212). -/
theorem writeStatus_eq (v : Word) (s : State) :
    writeStatus v s = { s with
      done := s.done && !v.getLsbD 1
      err := s.err && !v.getLsbD 2
      errcode := if v.getLsbD 2 then 0 else s.errcode
      sat := s.sat && !v.getLsbD 3 } := by
  unfold writeStatus
  cases v.getLsbD 2 <;> simp [clearError]

/-- A CMD write records error 4 while busy, is dropped with ERR = 1, and is accepted otherwise (R201). -/
theorem writeCmd_cases (w : Word) (s : State) :
    (s.busy = true ∧ writeCmd w s = recordError .cmdWhileBusy s)
    ∨ (s.busy = false ∧ s.err = true ∧ writeCmd w s = s)
    ∨ (s.busy = false ∧ s.err = false ∧ writeCmd w s = acceptCommand w s) := by
  unfold writeCmd
  cases s.busy <;> cases s.err <;> simp

/-- A guarded write records error 5 while busy and has its effect otherwise (R60). -/
theorem writeUnlessBusy_cases (upd : State → State) (s : State) :
    (s.busy = true ∧ writeUnlessBusy upd s = recordError .accessWhileBusy s)
    ∨ (s.busy = false ∧ writeUnlessBusy upd s = upd s) := by
  cases h : s.busy
  · exact .inr ⟨rfl, writeUnlessBusy_idle h⟩
  · exact .inl ⟨rfl, writeUnlessBusy_busy h⟩

/-- Writes of ID, ERRCODE, the OUT window and the reserved offsets are without effect (R21, R24, R57, R59). -/
theorem writeWord_readOnly {off : Nat}
    (h : off = 0x000 ∨ off = 0x00C ∨ 0x018 ≤ off ∧ off < 0x400 ∨ 0x1000 ≤ off) (w : Word) (s : State) :
    writeWord off w s = s := by
  rcases h with rfl | rfl | h | h
  · rfl
  · rfl
  · simp only [writeWord, regionAt_reserved (.inl h)]
  · by_cases ho : off < 0x1400
    · simp only [writeWord, regionAt_out_of_range ⟨h, ho⟩]
    · simp only [writeWord, regionAt_reserved (.inr (Nat.le_of_not_lt ho))]

/-- Every effect a legal write can have, with the offset and the value of BUSY that go with it (R21 to R26, R55 to R60,
R201). -/
theorem writeWord_effects (off : Nat) (w : Word) (s : State) :
    writeWord off w s = s
    ∨ (off = 0x010 ∧ s.busy = true ∧ writeWord off w s = recordError .cmdWhileBusy s)
    ∨ ((off = 0x014 ∨ 0x400 ≤ off ∧ off < 0x1000) ∧ s.busy = true ∧ writeWord off w s = recordError .accessWhileBusy s)
    ∨ (off = 0x004 ∧ w.getLsbD 0 = true ∧ writeWord off w s = softReset s)
    ∨ (off = 0x004 ∧ w.getLsbD 0 = false ∧ writeWord off w s = { s with irqen := w.getLsbD 1 })
    ∨ (off = 0x008 ∧ writeWord off w s = writeStatus w s)
    ∨ (off = 0x010 ∧ s.busy = false ∧ s.err = false ∧ writeWord off w s = acceptCommand w s)
    ∨ (off = 0x014 ∧ s.busy = false ∧ writeWord off w s = { s with qtdef := w.setWidth 4 })
    ∨ ((0x400 ≤ off ∧ off < 0x800) ∧ s.busy = false
        ∧ writeWord off w s = writeQtEntry ((off - 0x400) / 0x100) ((off - 0x400) % 0x100 / 4) (w.setWidth 16) s)
    ∨ ((0x800 ≤ off ∧ off < 0x1000) ∧ s.busy = false
        ∧ writeWord off w s = writeBlkEntry ((off - 0x800) / 0x100) ((off - 0x800) % 0x100 / 4) (w.setWidth 16) s) := by
  rcases writeWord_cases off w s with e | ⟨rfl, e⟩ | ⟨rfl, e⟩ | ⟨rfl, e⟩ | ⟨rfl, e⟩ | ⟨h1, h2, e⟩ | ⟨h1, h2, e⟩ <;> rw [e]
  · exact .inl rfl
  · cases hb : w.getLsbD 0
    · simp [writeCtrl_of_not_srst hb]
    · simp [writeCtrl_of_srst hb]
  · simp
  · rcases writeCmd_cases w s with ⟨hb, e⟩ | ⟨_, _, e⟩ | ⟨hb, he, e⟩ <;> simp [*]
  all_goals
    rcases writeUnlessBusy_cases _ s with ⟨hb, e⟩ | ⟨hb, e⟩
    · exact .inr (.inr (.inl ⟨by omega, hb, e⟩))
    · simp [*]

/-- What a step can do to the data of the block: a command that runs, a hardware reset and a legal write may change it, and
every other step keeps QT, QTDEF, BLK, OUT and SAT. -/
theorem step_data_cases {s t : State} (h : step s = .next t) :
    (∃ i, EngineNext s = true ∧ decode s.pend = .ok i ∧ exec i (takeCommand (turnTaken s)) = .next t)
    ∨ (s.inputs.head? = some .hardReset ∧ t = hardwareReset (turnTaken s))
    ∨ (∃ off w, WritesNext s off w ∧ t = writeWord off w (turnTaken s))
    ∨ (t.qt = s.qt ∧ t.qtdef = s.qtdef ∧ t.blk = s.blk ∧ t.out = s.out ∧ t.sat = s.sat) := by
  rcases step_cases h with ⟨hn, he⟩ | ⟨_, _, rfl⟩ | hr | ⟨_, _, rfl⟩ | hw | ⟨_, _, _, _, _, rfl⟩
    | ⟨_, _, _, _, _, _, rfl⟩
  · rcases engineStep_cases he with ⟨_, rfl⟩ | ⟨_, _, rfl⟩ | ⟨_, i, hd, hx⟩
    · simp
    · simp
    · exact .inl ⟨i, hn, hd, hx⟩
  · simp
  · exact .inr (.inl hr)
  · simp
  · exact .inr (.inr (.inl hw))
  · simp
  · simp

/-- A command keeps OUT, or is a CCONV or GRAY that stores its RO (R30). -/
theorem exec_out_cases {i : Instr} {s t : State} (h : exec i s = .next t) :
    t.out = s.out
    ∨ ∃ ro g, ((∃ ry rcb rcr h v hs vs, i = .cconv ry rcb rcr ro h v hs vs) ∨ ∃ ry, i = .gray ry ro)
        ∧ t.out = (storeOut ro g s).out := by
  rcases exec_cases h with ⟨_, _, _, _, _, rfl⟩ | ⟨_, _, _, _, _, _, _, _, _, _, rfl⟩ | ⟨_, rfl⟩ | ⟨_, _, rfl⟩
    | ⟨_, _, _, _, rfl⟩ | ⟨ro, g, hi, rfl⟩
  on_goal 6 => exact .inr ⟨ro, g, hi, rfl⟩
  all_goals exact .inl rfl

/-- A command keeps BLK, or is a DEQ, IDCT, CLR or DQI that stores its RD (R29). -/
theorem exec_blk_cases {i : Instr} {s t : State} (h : exec i s = .next t) :
    t.blk = s.blk
    ∨ ∃ rd g, ((∃ rs qt, i = .deq rd rs qt) ∨ (∃ rs, i = .idct rd rs) ∨ i = .clr rd ∨ ∃ rs qt, i = .dqi rd rs qt)
        ∧ t.blk = (storeBlk rd g s).blk := by
  rcases exec_cases h with ⟨_, _, _, _, _, rfl⟩ | ⟨_, _, _, _, _, _, _, _, _, _, rfl⟩ | ⟨_, rfl⟩ | ⟨rd, hi, rfl⟩
    | ⟨rd, g, _, hi, rfl⟩ | ⟨_, _, _, rfl⟩
  on_goal 5 => exact .inr ⟨rd, g, hi.imp_right (Or.imp_right .inr), rfl⟩
  on_goal 4 => exact .inr ⟨rd, _, .inr (.inr (.inl hi)), rfl⟩
  all_goals exact .inl rfl

/-- A command keeps SAT, or is a DEQ, IDCT or DQI that may raise it (R23). -/
theorem exec_sat_cases {i : Instr} {s t : State} (h : exec i s = .next t) :
    t.sat = s.sat
    ∨ ∃ f, ((∃ rd rs qt, i = .deq rd rs qt) ∨ (∃ rd rs, i = .idct rd rs) ∨ ∃ rd rs qt, i = .dqi rd rs qt)
        ∧ t.sat = (s.sat || f) := by
  rcases exec_cases h with ⟨_, _, _, _, _, rfl⟩ | ⟨_, _, _, _, _, _, _, _, _, _, rfl⟩ | ⟨_, rfl⟩ | ⟨_, _, rfl⟩
    | ⟨rd, _, f, hi, rfl⟩ | ⟨_, _, _, rfl⟩
  on_goal 5 => exact .inr ⟨f, hi.imp (⟨rd, ·⟩) (Or.imp (⟨rd, ·⟩) (⟨rd, ·⟩)), rfl⟩
  all_goals exact .inl rfl

/-- No write reaches OUT (R57). -/
@[simp] theorem writeWord_out (off : Nat) (w : Word) (s : State) : (writeWord off w s).out = s.out := by
  rcases writeWord_effects off w s with e | ⟨_, _, e⟩ | ⟨_, _, e⟩ | ⟨_, _, e⟩ | ⟨_, _, e⟩
    | ⟨_, e⟩ | ⟨_, _, _, e⟩ | ⟨_, _, e⟩ | ⟨_, _, e⟩ | ⟨_, _, e⟩ <;> simp [e, writeStatus_eq]

/-- A legal write keeps BLK, or is one of the BLK window with BUSY = 0 (R29, R60). -/
theorem writeWord_blk_cases (off : Nat) (w : Word) (s : State) :
    (writeWord off w s).blk = s.blk ∨ (s.busy = false ∧ 0x800 ≤ off ∧ off < 0x1000) := by
  rcases writeWord_effects off w s with e | ⟨_, _, e⟩ | ⟨_, _, e⟩ | ⟨_, _, e⟩ | ⟨_, _, e⟩
    | ⟨_, e⟩ | ⟨_, _, _, e⟩ | ⟨_, _, e⟩ | ⟨_, _, e⟩ | ⟨ho, hb, _⟩
  on_goal 10 => exact .inr ⟨hb, ho⟩
  all_goals simp [e, writeStatus_eq]

/-- A legal write keeps SAT, or clears it by a soft reset or by STATUS bit 3 (R22, R23). -/
theorem writeWord_sat_cases (off : Nat) (w : Word) (s : State) :
    (writeWord off w s).sat = s.sat
    ∨ ((writeWord off w s).sat = false
        ∧ (off = 0x004 ∧ w.getLsbD 0 = true ∨ off = 0x008 ∧ w.getLsbD 3 = true)) := by
  rcases writeWord_effects off w s with e | ⟨_, _, e⟩ | ⟨_, _, e⟩ | ⟨ho, hb, e⟩ | ⟨_, _, e⟩
    | ⟨ho, e⟩ | ⟨_, _, _, e⟩ | ⟨_, _, e⟩ | ⟨_, _, e⟩ | ⟨_, _, e⟩
  on_goal 6 =>
    rw [e, writeStatus_eq]
    cases w.getLsbD 3 <;> simp [ho]
  on_goal 4 => exact .inr ⟨by simp [e], .inl ⟨ho, hb⟩⟩
  all_goals simp [e]

end Sys2Proof.Machine
end

section
/-! The invariant of the block: one rule per operation, then every step. -/

namespace Sys2Proof.Machine

/-- No code is 0 or reserved (R205). -/
theorem ErrorCode.code_valid (c : ErrorCode) : c.code ≠ 0 ∧ c.code.toNat ≤ 6 := by
  cases c <;> decide

/-- The invariant does not speak of the script, the model's own fields or SAT. -/
theorem inv_turnTaken {s : State} (h : s.Inv) : (turnTaken s).Inv := h

theorem inv_nextDraw {s : State} (h : s.Inv) : (nextDraw s).Inv := h

theorem inv_returnWord (w : Word) {s : State} (h : s.Inv) : (returnWord w s).Inv := h

theorem inv_raiseSat (f : Bool) {s : State} (h : s.Inv) : (raiseSat f s).Inv := h

theorem inv_hardwareReset (s : State) : (hardwareReset s).Inv := by
  simp [State.Inv, Memory.wf_nil]

theorem inv_softReset {s : State} (h : s.Inv) : (softReset s).Inv := by
  obtain ⟨hqt, hblk, hout, -, -, -⟩ := h
  exact ⟨hqt, hblk, hout, by simp, by simp, by simp⟩

theorem inv_recordError (c : ErrorCode) {s : State} (h : s.Inv) : (recordError c s).Inv := by
  obtain ⟨hqt, hblk, hout, hcode, hle, hbusy⟩ := h
  obtain ⟨hc, hc6⟩ := c.code_valid
  refine ⟨hqt, hblk, hout, ?_, ?_, hbusy⟩ <;> rw [recordError_errcode] <;> cases he : s.err
  · simpa using hc
  · simpa [he] using hcode
  · simpa using hc6
  · simpa using hle

/-- STATUS bit 2 clears CODE with ERR (R212), and no bit sets DONE. -/
theorem inv_writeStatus (w : Word) {s : State} (h : s.Inv) : (writeStatus w s).Inv := by
  obtain ⟨hqt, hblk, hout, hcode, hle, hbusy⟩ := h
  have hdone : s.busy = true → (s.done && !w.getLsbD 1) = false := fun hb => by rw [hbusy hb, Bool.false_and]
  rw [writeStatus_eq]
  cases w.getLsbD 2
  · exact ⟨hqt, hblk, hout, by simpa using hcode, by simpa using hle, hdone⟩
  · exact ⟨hqt, hblk, hout, by simp, by simp, hdone⟩

/-- An accepted command clears DONE (R201), and a taken one is no longer pending (R202). -/
theorem inv_acceptCommand (w : Word) {s : State} (h : s.Inv) : (acceptCommand w s).Inv := by
  obtain ⟨hqt, hblk, hout, hcode, hle, -⟩ := h
  exact ⟨hqt, hblk, hout, hcode, hle, fun _ => rfl⟩

theorem inv_takeCommand {s : State} (h : s.Inv) : (takeCommand s).Inv := by
  obtain ⟨hqt, hblk, hout, hcode, hle, -⟩ := h
  exact ⟨hqt, hblk, hout, hcode, hle, by simp⟩

/-- Only with BUSY = 0 may DONE be set (R63). -/
theorem inv_complete {s : State} (hb : s.busy = false) (h : s.Inv) : (complete s).Inv := by
  obtain ⟨hqt, hblk, hout, hcode, hle, -⟩ := h
  exact ⟨hqt, hblk, hout, hcode, hle, by simp [hb]⟩

theorem inv_storeBlk (b : Fin 8) (g : Nat → Entry) {s : State} (h : s.Inv) : (storeBlk b g s).Inv := by
  obtain ⟨hqt, hblk, hrest⟩ := h
  exact ⟨hqt, wf_storeBlk b g s hblk, hrest⟩

theorem inv_storeOut (o : Fin 4) (g : Nat → Pixel) {s : State} (h : s.Inv) : (storeOut o g s).Inv := by
  obtain ⟨hqt, hblk, hout, hrest⟩ := h
  exact ⟨hqt, hblk, wf_storeOut o g s hout, hrest⟩

theorem inv_writeQtEntry {t i : Nat} (v : Entry) (ht : t < 4) (hi : i < 64) {s : State} (h : s.Inv) :
    (writeQtEntry t i v s).Inv := by
  obtain ⟨hqt, hrest⟩ := h
  exact ⟨wf_writeQtEntry v s ht hi hqt, hrest⟩

theorem inv_writeBlkEntry {b i : Nat} (v : Entry) (hb : b < 8) (hi : i < 64) {s : State} (h : s.Inv) :
    (writeBlkEntry b i v s).Inv := by
  obtain ⟨hqt, hblk, hrest⟩ := h
  exact ⟨hqt, wf_writeBlkEntry v s hb hi hblk, hrest⟩

/-- Every legal write keeps the invariant; the windows' bounds are what keeps the keys in range. -/
theorem inv_writeWord (off : Nat) (w : Word) {s : State} (h : s.Inv) : (writeWord off w s).Inv := by
  rcases writeWord_effects off w s with e | ⟨_, _, e⟩ | ⟨_, _, e⟩ | ⟨_, _, e⟩ | ⟨_, _, e⟩
    | ⟨_, e⟩ | ⟨_, _, _, e⟩ | ⟨_, _, e⟩ | ⟨ho, _, e⟩ | ⟨ho, _, e⟩ <;> rw [e]
  · exact h
  · exact inv_recordError _ h
  · exact inv_recordError _ h
  · exact inv_softReset h
  · exact h
  · exact inv_writeStatus w h
  · exact inv_acceptCommand w h
  · exact h
  · exact inv_writeQtEntry _ (by omega) (by omega) h
  · exact inv_writeBlkEntry _ (by omega) (by omega) h

/-- Every command keeps the invariant; it runs with BUSY = 0 (R202). -/
theorem inv_exec {i : Instr} {s t : State} (hx : exec i s = .next t) (hb : s.busy = false) (h : s.Inv) : t.Inv := by
  rcases exec_cases hx with ⟨_, _, _, _, _, rfl⟩ | ⟨_, _, _, _, _, _, _, _, _, _, rfl⟩ | ⟨_, rfl⟩ | ⟨rd, _, rfl⟩
    | ⟨rd, g, f, _, rfl⟩ | ⟨ro, g, _, rfl⟩
  · exact inv_recordError _ h
  · exact inv_recordError _ h
  · exact inv_complete hb h
  · exact inv_complete hb (inv_storeBlk rd _ h)
  · exact inv_nextDraw (inv_complete hb (inv_raiseSat f (inv_storeBlk rd g h)))
  · exact inv_nextDraw (inv_complete hb (inv_storeOut ro g h))

theorem inv_engineStep {s t : State} (he : engineStep s = .next t) (h : s.Inv) : t.Inv := by
  rcases engineStep_cases he with ⟨_, rfl⟩ | ⟨_, _, rfl⟩ | ⟨_, i, _, hx⟩
  · exact inv_takeCommand h
  · exact inv_recordError _ (inv_takeCommand h)
  · exact inv_exec hx rfl (inv_takeCommand h)

/-- Settles O25, by whose turn it is: each agent's operations keep the invariant. -/
theorem everyStepKeepsTheInvariant : Obligations.EveryStepKeepsTheInvariant := by
  intro s t hs h
  have ht := inv_turnTaken hs
  rcases step_cases h with ⟨_, he⟩ | ⟨_, _, rfl⟩ | ⟨_, rfl⟩ | ⟨_, _, rfl⟩ | ⟨off, w, _, rfl⟩ | ⟨_, _, _, _, _, rfl⟩
    | ⟨_, _, _, _, _, _, rfl⟩
  · exact inv_engineStep he ht
  · exact ht
  · exact inv_hardwareReset _
  · exact inv_nextDraw (inv_returnWord _ ht)
  · exact inv_writeWord off w ht
  · exact inv_returnWord 0 (inv_recordError .badAccess ht)
  · exact inv_recordError .badAccess ht

/-- Settles O24: the values of reset are those of a hardware reset. -/
theorem invariantHoldsAtReset : Obligations.InvariantHoldsAtReset :=
  inv_hardwareReset State.reset

end Sys2Proof.Machine
end

section
/-! Who writes OUT, BLK and SAT (R23, R29, R30). -/

namespace Sys2Proof.Machine

/-- Settles O39: of the steps that may change data, a write keeps OUT, and a command that changes it stores its RO. -/
theorem outIsWrittenByColourCommandsOnly : Obligations.OutIsWrittenByColourCommandsOnly := by
  intro s t h hne
  rcases step_data_cases h with ⟨i, hn, hd, hx⟩ | ⟨hr, -⟩ | ⟨off, w, -, rfl⟩ | ⟨-, -, -, hout, -⟩
  · rcases exec_out_cases hx with hout | ⟨ro, g, hi, hout⟩
    · exact absurd hout hne
    · refine .inr ⟨hn, ro, ?_, fun k hk => hout ▸ read_storeOut_outside hk⟩
      rcases hi with ⟨ry, rcb, rcr, h, v, hs, vs, rfl⟩ | ⟨ry, rfl⟩
      · exact .inl ⟨ry, rcb, rcr, h, v, hs, vs, hd⟩
      · exact .inr ⟨ry, hd⟩
  · exact .inl hr
  · exact absurd (writeWord_out off w _) hne
  · exact absurd hout hne

/-- Settles O40: a write that changes BLK is one of its window while idle, and a command that changes it stores its RD. -/
theorem blockBuffersAreWrittenByTheirCommandsOnly : Obligations.BlockBuffersAreWrittenByTheirCommandsOnly := by
  intro s t h hne
  rcases step_data_cases h with ⟨i, hn, hd, hx⟩ | ⟨hr, -⟩ | ⟨off, w, hw, rfl⟩ | ⟨-, -, hblk, -, -⟩
  · rcases exec_blk_cases hx with hblk | ⟨rd, g, hi, hblk⟩
    · exact absurd hblk hne
    · refine .inr (.inr ⟨hn, rd, ?_, fun k hk => hblk ▸ read_storeBlk_outside hk⟩)
      rcases hi with ⟨rs, qt, rfl⟩ | ⟨rs, rfl⟩ | rfl | ⟨rs, qt, rfl⟩
      · exact .inl ⟨rs, qt, hd⟩
      · exact .inr (.inl ⟨rs, hd⟩)
      · exact .inr (.inr (.inl hd))
      · exact .inr (.inr (.inr ⟨rs, qt, hd⟩))
  · exact .inl hr
  · rcases writeWord_blk_cases off w (turnTaken s) with hblk | ⟨hb, hlo, hhi⟩
    · exact absurd hblk hne
    · exact .inr (.inl ⟨hb, off, w, hlo, hhi, hw⟩)
  · exact absurd hblk hne

/-- Settles O41: a command never clears SAT, since it stores SAT or its overflow bit; a write never sets it. -/
theorem satIsSticky : Obligations.SatIsSticky := by
  constructor
  · intro s t h hs ht
    have hne : t.sat ≠ s.sat := by simp [hs, ht]
    rcases step_data_cases h with ⟨i, -, -, hx⟩ | ⟨hr, -⟩ | ⟨off, w, hw, rfl⟩ | ⟨-, -, -, -, hsat⟩
    · rcases exec_sat_cases hx with hsat | ⟨f, -, hsat⟩
      · exact absurd hsat hne
      · simp [hs, ht] at hsat
    · exact .inl (.inl hr)
    · rcases writeWord_sat_cases off w (turnTaken s) with hsat | ⟨-, ⟨rfl, hbit⟩ | ⟨rfl, hbit⟩⟩
      · exact absurd hsat hne
      · exact .inl (.inr ⟨w, hbit, hw⟩)
      · exact .inr ⟨w, hbit, hw⟩
    · exact absurd hsat hne
  · intro s t h hs ht
    have hne : t.sat ≠ s.sat := by simp [hs, ht]
    rcases step_data_cases h with ⟨i, hn, hd, hx⟩ | ⟨-, rfl⟩ | ⟨off, w, -, rfl⟩ | ⟨-, -, -, -, hsat⟩
    · rcases exec_sat_cases hx with hsat | ⟨f, hi, -⟩
      · exact absurd hsat hne
      · refine ⟨hn, ?_⟩
        rcases hi with ⟨rd, rs, qt, rfl⟩ | ⟨rd, rs, rfl⟩ | ⟨rd, rs, qt, rfl⟩
        · exact .inl ⟨rd, rs, qt, hd⟩
        · exact .inr (.inl ⟨rd, rs, hd⟩)
        · exact .inr (.inr ⟨rd, rs, qt, hd⟩)
    · simp at ht
    · rcases writeWord_sat_cases off w (turnTaken s) with hsat | ⟨hsat, -⟩
      · exact absurd hsat hne
      · simp [hsat] at ht
    · exact absurd hsat hne

end Sys2Proof.Machine
end

section
/-! What single registers and windows read as and what their writes change (R21 to R33). -/

namespace Sys2Proof.Machine

/-- A legal read, given what it returns (R58). -/
theorem step_of_read {s : State} {off : Nat} {w : Word} (h : ReadsNext s off) (hw : readWord off (turnTaken s) = w) :
    step s = .next { turnTaken s with rdata := w, draws := s.draws + 1 } := by
  rw [step_of_readsNext h, hw]
  rfl

/-- A legal write, given what it leaves. -/
theorem step_of_write {s t : State} {off : Nat} {w : Word} (h : WritesNext s off w)
    (ht : writeWord off w (turnTaken s) = t) : step s = .next t := by
  rw [step_of_writesNext h, ht]

theorem ctrlWord_eq (s : State) : ctrlWord s = if s.irqen then 2 else 0 := by
  unfold ctrlWord
  cases s.irqen <;> decide

/-- STATUS bit by bit (R23). -/
theorem getLsbD_statusWord (s : State) (n : Nat) :
    (statusWord s).getLsbD n = (n == 0 && s.busy || n == 1 && s.done || n == 2 && s.err || n == 3 && s.sat) := by
  simp only [statusWord, BitVec.getLsbD_or, getLsbD_flagBit _ (show 0 < 32 by decide),
    getLsbD_flagBit _ (show 1 < 32 by decide), getLsbD_flagBit _ (show 2 < 32 by decide),
    getLsbD_flagBit _ (show 3 < 32 by decide), beq_eq_decide, Bool.and_comm]

theorem toNat_errcodeWord (s : State) : (errcodeWord s).toNat = s.errcode.toNat :=
  BitVec.toNat_setWidth_of_le (by decide)

theorem toNat_qtdefWord (s : State) : (qtdefWord s).toNat = s.qtdef.toNat :=
  BitVec.toNat_setWidth_of_le (by decide)

theorem statusWord_softReset (s : State) : statusWord (softReset s) = 0 :=
  BitVec.eq_of_getLsbD_eq fun n _ => by simp [getLsbD_statusWord]

/-- The registers after a soft reset (R33, R242). -/
theorem softReset_registers (s : State) :
    readWord 0x000 (softReset s) = 0x1DC70007 ∧ readWord 0x004 (softReset s) = 0 ∧ readWord 0x008 (softReset s) = 0
      ∧ readWord 0x00C (softReset s) = 0 ∧ readWord 0x014 (softReset s) = 0 :=
  ⟨rfl, rfl, statusWord_softReset s, rfl, rfl⟩

/-- IRQ (R31). -/
theorem irq_iff (s : State) : irq s = true ↔ s.irqen = true ∧ (s.done = true ∨ s.err = true) := by
  simp [irq]

theorem irq_eq_false {s : State} (hd : s.done = false) (he : s.err = false) : irq s = false := by
  simp [irq, hd, he]

/-- Settles O21: hardware reset leaves what a soft reset of the reset state leaves. -/
theorem resetValues : Obligations.ResetValues := by
  constructor
  · obtain ⟨hid, hctrl, hstatus, herr, hqtdef⟩ := softReset_registers State.reset
    exact ⟨hid, hctrl, hstatus, herr, hqtdef, rfl, irq_eq_false rfl rfl, fun _ => ⟨rfl, rfl, rfl⟩⟩
  · intro s
    obtain ⟨hid, hctrl, hstatus, herr, hqtdef⟩ := softReset_registers s
    exact ⟨hid, hctrl, hstatus, herr, hqtdef, rfl, irq_eq_false rfl rfl, rfl, rfl, rfl⟩

/-- Settles O26, register by register. -/
theorem registerReads : Obligations.RegisterReads := by
  intro s
  refine ⟨fun h => ?_, fun h => ?_, fun h => ?_, fun h => ?_, fun h => ?_, fun h => ?_⟩
  · exact step_of_read h rfl
  · exact step_of_read h (ctrlWord_eq _)
  · exact ⟨_, step_of_read h (readWord_status _), getLsbD_statusWord _⟩
  · exact ⟨_, step_of_read h (readWord_errcode _), toNat_errcodeWord _⟩
  · exact step_of_read h rfl
  · exact ⟨_, step_of_read h (readWord_qtdef _), toNat_qtdefWord _⟩

/-- Settles O28, register by register. -/
theorem registerWrites : Obligations.RegisterWrites := by
  intro s v
  refine ⟨fun h hbit => ?_, fun h => ?_, fun h hb => ?_⟩
  · exact step_of_write h (writeCtrl_of_not_srst hbit _)
  · exact step_of_write h (writeStatus_eq v _)
  · refine ⟨{ turnTaken s with qtdef := v.setWidth 4 }, step_of_write h ?_, fun q => ?_, rfl⟩
    · rw [writeWord_qtdef, writeUnlessBusy_idle (s := turnTaken s) hb]
    · simp [slotDefined]

/-- Settles O29: `writeWord` has no effect at these offsets, whatever BUSY is. -/
theorem writesWithoutEffect : Obligations.WritesWithoutEffect :=
  fun _ _ w h hoff => step_of_write h (writeWord_readOnly hoff w _)

/-- Settles O36: a window read of an unlisted key puts the free value on the bus. -/
theorem unwrittenEntriesReadAsFreeValues : Obligations.UnwrittenEntriesReadAsFreeValues := by
  intro s b i hi hb
  refine ⟨fun hlt hnone h => ?_, fun hlt hnone h => ?_, fun hlt hnone h => ?_⟩
  · refine ⟨_, _, step_of_read h (readWord_qt hlt hi hb), ?_, rfl⟩
    have hq : qtEntry (turnTaken s) b i = none := hnone
    rw [hq]
    exact BitVec.toNat_setWidth_of_le (by decide)
  · refine ⟨_, _, step_of_read h (readWord_blk hlt hi hb), ?_, rfl⟩
    have hq : blkEntry (turnTaken s) b i = none := hnone
    rw [hq]
    exact BitVec.toInt_signExtend_of_le (by decide)
  · exact ⟨_, step_of_read h (readWord_out hlt hi hb), (byteLane_pixelBusWord _).2.2.2⟩

/-- Settles O37: both resets and a write of 0x6 to STATUS leave DONE and ERR 0. -/
theorem interruptIsDoneOrErrWhileEnabled : Obligations.InterruptIsDoneOrErrWhileEnabled := by
  refine ⟨irq_iff, irq_eq_false rfl rfl, fun s => ⟨irq_eq_false rfl rfl, irq_eq_false rfl rfl⟩, fun s h => ?_⟩
  refine ⟨_, step_of_write h (writeStatus_eq 0x6 _), irq_eq_false ?_ ?_⟩ <;> simp

end Sys2Proof.Machine
end

section
/-! BUSY, DONE and the operands of a pending command along a step (R60, R63, R64, R66). -/

namespace Sys2Proof.Machine

/-- While BUSY = 1 a legal write that is no soft reset keeps the pending command and its operands (R60, R64). -/
theorem writeWord_keeps_operands {off : Nat} {w : Word} {s : State} (hb : s.busy = true)
    (hr : ¬(off = 0x004 ∧ w.getLsbD 0 = true)) :
    (writeWord off w s).busy = true ∧ (writeWord off w s).pend = s.pend ∧ (writeWord off w s).qt = s.qt
      ∧ (writeWord off w s).qtdef = s.qtdef ∧ (writeWord off w s).blk = s.blk ∧ (writeWord off w s).out = s.out := by
  rcases writeWord_effects off w s with e | ⟨_, _, e⟩ | ⟨_, _, e⟩ | ⟨ho, h0, _⟩ | ⟨_, _, e⟩
    | ⟨_, e⟩ | ⟨_, hi, _⟩ | ⟨_, hi, _⟩ | ⟨_, hi, _⟩ | ⟨_, hi, _⟩
  on_goal 4 => exact absurd ⟨ho, h0⟩ hr
  iterate 5 simp [e, hb, writeStatus_eq]
  all_goals simp [hb] at hi

/-- Settles O12: with BUSY = 1 only the engine and the resets reach PEND and the operands; a write there is discarded. -/
theorem operandsStayFixedWhilePending : Obligations.OperandsStayFixedWhilePending := by
  intro s t h hb hn hr
  rcases step_cases h with ⟨he, -⟩ | ⟨hi, -, -⟩ | ⟨hrst, -⟩ | ⟨_, -, rfl⟩ | ⟨off, w, hw, rfl⟩ | ⟨_, _, -, -, -, rfl⟩
    | ⟨_, _, _, -, -, -, rfl⟩
  · simp [he] at hn
  · simp [hi] at hb
  · exact absurd (.inl hrst) hr
  · simp [hb]
  · exact writeWord_keeps_operands hb fun ⟨ho, h0⟩ => hr (.inr ⟨w, h0, ho ▸ hw⟩)
  · simp [hb]
  · simp [hb]

/-- A command sets DONE and records no error, or keeps DONE (R63). -/
theorem exec_done_cases {i : Instr} {s t : State} (h : exec i s = .next t) :
    t.done = s.done ∨ (t.done = true ∧ t.err = s.err) := by
  rcases exec_cases h with ⟨_, _, _, _, _, rfl⟩ | ⟨_, _, _, _, _, _, _, _, _, _, rfl⟩ | ⟨_, rfl⟩ | ⟨_, _, rfl⟩
    | ⟨_, _, _, _, rfl⟩ | ⟨_, _, _, rfl⟩ <;> simp

/-- An engine step keeps DONE unless it runs a legal command to its end without an error (R202). -/
theorem engineStep_done_cases {s t : State} (h : engineStep s = .next t) :
    t.done = s.done ∨ (s.err = false ∧ t.err = false ∧ ∃ i, decode s.pend = .ok i) := by
  rcases engineStep_cases h with ⟨_, rfl⟩ | ⟨_, _, rfl⟩ | ⟨he, i, hd, hx⟩
  · simp
  · simp
  · exact (exec_done_cases hx).imp id fun ⟨_, herr⟩ => ⟨he, herr.trans he, i, hd⟩

/-- No write sets DONE (R63). -/
theorem done_of_writeWord_done (off : Nat) (w : Word) (s : State) : (writeWord off w s).done = true → s.done = true := by
  rcases writeWord_effects off w s with e | ⟨_, _, e⟩ | ⟨_, _, e⟩ | ⟨_, _, e⟩ | ⟨_, _, e⟩
    | ⟨_, e⟩ | ⟨_, _, _, e⟩ | ⟨_, _, e⟩ | ⟨_, _, e⟩ | ⟨_, _, e⟩ <;> simp +contextual [e, writeStatus_eq]

/-- A write that sets BUSY is a CMD write that is accepted (R201). -/
theorem accepted_of_writeWord_busy {off : Nat} {w : Word} {s : State} (hb : s.busy = false)
    (h : (writeWord off w s).busy = true) :
    off = 0x010 ∧ s.err = false ∧ writeWord off w s = acceptCommand w s := by
  rcases writeWord_effects off w s with e | ⟨_, _, e⟩ | ⟨_, _, e⟩ | ⟨_, _, e⟩ | ⟨_, _, e⟩
    | ⟨_, e⟩ | ⟨ho, _, he, e⟩ | ⟨_, _, e⟩ | ⟨_, _, e⟩ | ⟨_, _, e⟩
  on_goal 7 => exact ⟨ho, he, e⟩
  all_goals simp [e, hb, writeStatus_eq] at h

/-- Settles O11: of all turns only a command's completion sets DONE, and only an accepted CMD write sets BUSY. -/
theorem doneIsSetOnlyByACompletedCommand : Obligations.DoneIsSetOnlyByACompletedCommand := by
  constructor
  · intro s t h hs ht
    have hne : t.done ≠ s.done := by simp [hs, ht]
    rcases step_cases h with ⟨hn, he⟩ | ⟨-, -, rfl⟩ | ⟨-, rfl⟩ | ⟨_, -, rfl⟩ | ⟨off, w, -, rfl⟩ | ⟨_, _, -, -, -, rfl⟩
      | ⟨_, _, _, -, -, -, rfl⟩
    · obtain ⟨-, hbusy, -⟩ := engineStep_keeps he
      rcases engineStep_done_cases he with hdone | ⟨herr, herr', hi⟩
      · exact absurd hdone hne
      · exact ⟨hn, herr, hbusy, herr', hi⟩
    · exact absurd rfl hne
    · simp at ht
    · exact absurd rfl hne
    · exact absurd (ht.trans (done_of_writeWord_done _ _ _ ht).symm) hne
    · exact absurd rfl hne
    · exact absurd rfl hne
  · intro s t h hs ht
    have hne : t.busy ≠ s.busy := by simp [hs, ht]
    rcases step_cases h with ⟨-, he⟩ | ⟨-, -, rfl⟩ | ⟨-, rfl⟩ | ⟨_, -, rfl⟩ | ⟨off, w, hw, rfl⟩ | ⟨_, _, -, -, -, rfl⟩
      | ⟨_, _, _, -, -, -, rfl⟩
    · obtain ⟨-, hbusy, -⟩ := engineStep_keeps he
      exact absurd (hbusy.trans hs.symm) hne
    · exact absurd rfl hne
    · simp at ht
    · exact absurd rfl hne
    · obtain ⟨rfl, herr, e⟩ := accepted_of_writeWord_busy (s := turnTaken s) hs ht
      rw [e]
      exact ⟨rfl, herr, hw⟩
    · exact absurd rfl hne
    · exact absurd rfl hne

end Sys2Proof.Machine
end

section
/-! Accesses outside the aperture and bad accesses (R50, R53; log 9, log 11). -/

namespace Sys2Proof.Machine

/-- A step takes the first turn of the script. -/
theorem step_of_head {s : State} {e : Event} (h : s.inputs.head? = some e) : step s = turn e (turnTaken s) := by
  obtain ⟨rest, hi⟩ := List.head?_eq_some_iff.mp h
  simp [step, turnTaken, hi]

/-- With the script exhausted a step is the engine's turn (log 2). -/
theorem step_of_noInputs {s : State} (h : s.inputs = []) : step s = engineTurn s := by
  simp [step, h]

theorem engineTurn_next (s : State) : ∃ t, engineTurn s = .next t := by
  cases hb : s.busy
  · exact ⟨s, by simp [engineTurn, hb]⟩
  · simpa [engineTurn, hb] using engineStep_next s

/-- The first address of an access decides whether it reaches the block (R50). -/
theorem atAperture_of_inside {addr : Nat} (h : Config.base ≤ addr ∧ addr < Config.base + Config.apertureSize)
    (act : Nat → State → State) (s : State) : atAperture addr act s = .next (act (addr - Config.base) s) := by
  simp [atAperture, apertureOffset, h]

theorem atAperture_of_outside {addr : Nat} (h : ¬(Config.base ≤ addr ∧ addr < Config.base + Config.apertureSize))
    (act : Nat → State → State) (s : State) : atAperture addr act s = .fault .outsideAperture := by
  simp only [atAperture, apertureOffset, if_neg h]

/-- A turn that addresses the block, or no access at all, has a next state. -/
theorem turn_next_of_inAperture {e : Event} (h : e.inAperture) (s : State) : ∃ t, turn e s = .next t := by
  cases e with
  | read addr bytes => exact ⟨_, atAperture_of_inside h _ s⟩
  | write addr bytes w => exact ⟨_, atAperture_of_inside h _ s⟩
  | engine => exact engineTurn_next s
  | hardReset => exact ⟨_, rfl⟩

/-- An access outside the aperture stops the machine (log 9). -/
theorem turn_fault_of_not_inAperture {e : Event} (h : ¬e.inAperture) (s : State) :
    turn e s = .fault .outsideAperture := by
  cases e with
  | read addr bytes => exact atAperture_of_outside h _ s
  | write addr bytes w => exact atAperture_of_outside h _ s
  | engine => exact absurd trivial h
  | hardReset => exact absurd trivial h

/-- Settles O15: the next turn decides, and only an access outside the aperture stops. -/
theorem stepStopsExactlyOutsideTheAperture : Obligations.StepStopsExactlyOutsideTheAperture := by
  constructor
  · rintro s ⟨e, he, hout⟩
    rw [step_of_head he, turn_fault_of_not_inAperture hout]
  · intro s h
    cases hi : s.inputs.head? with
    | none =>
      rw [step_of_noInputs (List.head?_eq_none_iff.mp hi)]
      exact engineTurn_next s
    | some e =>
      rw [step_of_head hi]
      exact turn_next_of_inAperture (h e hi) _

/-- A bad access of the block records error 6 and does nothing else; a bad read returns 0 (R53). -/
theorem step_of_badWrite {s : State} {off bytes : Nat} {w : Word} (ho : off < 0x2000)
    (hbad : ¬(bytes = 4 ∧ off % 4 = 0)) (h : s.inputs.head? = some (.write (Config.base + off) bytes w)) :
    step s = .next (recordError .badAccess (turnTaken s)) := by
  rw [step_of_head h]
  simp [turn, atAperture, apertureOffset_add ho, hostWrite, goodAccess_iff, hbad]

theorem step_of_badRead {s : State} {off bytes : Nat} (ho : off < 0x2000)
    (hbad : ¬(bytes = 4 ∧ off % 4 = 0)) (h : s.inputs.head? = some (.read (Config.base + off) bytes)) :
    step s = .next (returnWord 0 (recordError .badAccess (turnTaken s))) := by
  rw [step_of_head h]
  simp [turn, atAperture, apertureOffset_add ho, hostRead, goodAccess_iff, hbad]

/-- Settles O31: an access within the aperture begins in it, and one that is not aligned and 32-bit is bad. -/
theorem badAccessesRecordErrorSix : Obligations.BadAccessesRecordErrorSix := by
  intro s off bytes hpos hin hbad
  have ho : off < 0x2000 := by omega
  have hbad' : ¬(bytes = 4 ∧ off % 4 = 0) := by omega
  exact ⟨fun _ h => step_of_badWrite ho hbad' h, fun h => step_of_badRead ho hbad' h⟩

/-- Settles O60: an aligned 32-bit access that begins in the aperture ends in it, so these accesses are bad. -/
theorem straddlingAccessesAreDecidedByTheirFirstAddress :
    Obligations.StraddlingAccessesAreDecidedByTheirFirstAddress := by
  intro s off bytes ho hend
  have hbad : ¬(bytes = 4 ∧ off % 4 = 0) := by omega
  exact ⟨fun _ h => step_of_badWrite ho hbad h, fun h => step_of_badRead ho hbad h⟩

end Sys2Proof.Machine
end

section
/-! Accesses while a command is pending, and accesses made twice (R58, R60). -/

namespace Sys2Proof.Machine

/-- A legal write at any offset of the QT window or the BLK window (R55, R56, R60). -/
theorem writeWord_qt_of_range {off : Nat} (h : 0x400 ≤ off ∧ off < 0x800) (w : Word) (s : State) :
    writeWord off w s
      = writeUnlessBusy (writeQtEntry ((off - 0x400) / 0x100) ((off - 0x400) % 0x100 / 4) (w.setWidth 16)) s := by
  simp only [writeWord, regionAt_qt_of_range h]

theorem writeWord_blk_of_range {off : Nat} (h : 0x800 ≤ off ∧ off < 0x1000) (w : Word) (s : State) :
    writeWord off w s
      = writeUnlessBusy (writeBlkEntry ((off - 0x800) / 0x100) ((off - 0x800) % 0x100 / 4) (w.setWidth 16)) s := by
  simp only [writeWord, regionAt_blk_of_range h]

/-- A write of QTDEF or of the QT or BLK window with BUSY = 1 is discarded (R60). -/
theorem writeWord_busy {off : Nat} (ho : off = 0x014 ∨ 0x400 ≤ off ∧ off < 0x1000) (w : Word) {s : State}
    (hb : s.busy = true) : writeWord off w s = recordError .accessWhileBusy s := by
  rcases ho with rfl | ⟨hlo, hhi⟩
  · rw [writeWord_qtdef, writeUnlessBusy_busy hb]
  · rcases Nat.lt_or_ge off 0x800 with h8 | h8
    · rw [writeWord_qt_of_range ⟨hlo, h8⟩, writeUnlessBusy_busy hb]
    · rw [writeWord_blk_of_range ⟨h8, hhi⟩, writeUnlessBusy_busy hb]

/-- A window read with BUSY = 1 is free (R60, U3). -/
theorem readWord_window_busy {off : Nat} (ho : 0x400 ≤ off ∧ off < 0x1400) {s : State} (hb : s.busy = true) :
    readWord off s = Config.freeWord s.draws := by
  obtain ⟨hlo, hhi⟩ := ho
  unfold readWord
  rcases Nat.lt_or_ge off 0x800 with h8 | h8
  · simp only [regionAt_qt_of_range ⟨hlo, h8⟩, hb, if_true]
  · rcases Nat.lt_or_ge off 0x1000 with h10 | h10
    · simp only [regionAt_blk_of_range ⟨h8, h10⟩, hb, if_true]
    · simp only [regionAt_out_of_range ⟨h10, hhi⟩, hb, if_true]

/-- A reserved offset reads as 0 (R59). -/
theorem readWord_reserved {off : Nat} (h : 0x018 ≤ off ∧ off < 0x400 ∨ 0x1400 ≤ off) (s : State) :
    readWord off s = 0 := by
  simp only [readWord, regionAt_reserved h]

/-- Of the offsets outside the windows only STATUS reads BUSY (R23, R60). -/
theorem readWord_setBusy {off : Nat} (h : off < 0x400 ∧ off ≠ 0x008 ∨ 0x1400 ≤ off) (s : State) (b : Bool) :
    readWord off { s with busy := b } = readWord off s := by
  rcases h with ⟨hlt, h8⟩ | hge
  · have hreg : regionAt off = registerAt off := if_pos hlt
    rcases registerAt_cases off with ⟨rfl, -⟩ | ⟨rfl, -⟩ | ⟨rfl, -⟩ | ⟨rfl, -⟩ | ⟨rfl, -⟩ | ⟨rfl, -⟩ | hres
    on_goal 3 => exact absurd rfl h8
    on_goal 6 => simp only [readWord, hreg, hres]
    all_goals rfl
  · rw [readWord_reserved (.inr hge), readWord_reserved (.inr hge)]

/-- Settles O35: BUSY guards the windows and QTDEF, and of the rest only STATUS shows it. -/
theorem accessesWhileBusy : Obligations.AccessesWhileBusy := by
  intro s off hb
  refine ⟨fun w hw ho => ?_, fun hr ho => ?_, fun ho => (readWord_setBusy ho s false).symm⟩
  · exact step_of_write hw (writeWord_busy ho w (s := turnTaken s) hb)
  · exact step_of_read hr (readWord_window_busy ho (s := turnTaken s) hb)

/-- Recording an error again changes nothing (R203). -/
theorem recordError_recordError (c : ErrorCode) (s : State) : recordError c (recordError c s) = recordError c s := by
  simp [recordError]

/-- A guarded write made twice: both are discarded, or both have their effect. -/
theorem writeUnlessBusy_twice {upd : State → State} {s : State} (hbusy : (upd s).busy = s.busy)
    (htwice : upd (upd s) = upd s) : writeUnlessBusy upd (writeUnlessBusy upd s) = writeUnlessBusy upd s := by
  cases hb : s.busy
  · rw [writeUnlessBusy_idle hb, writeUnlessBusy_idle (hbusy.trans hb), htwice]
  · rw [writeUnlessBusy_busy hb, writeUnlessBusy_busy (s := recordError _ s) hb, recordError_recordError]

/-- Storing the same entry twice is storing it once (R58). -/
theorem writeQtEntry_twice (t i : Nat) (v : Entry) (s : State) :
    writeQtEntry t i v (writeQtEntry t i v s) = writeQtEntry t i v s := by
  simp only [writeQtEntry, Memory.write_write]

theorem writeBlkEntry_twice (b i : Nat) (v : Entry) (s : State) :
    writeBlkEntry b i v (writeBlkEntry b i v s) = writeBlkEntry b i v s := by
  simp only [writeBlkEntry, Memory.write_write]

/-- Settles O27: a data write stores the same value again, or is discarded again. -/
theorem readsChangeNothingAndDataWritesAreIdempotent : Obligations.ReadsChangeNothingAndDataWritesAreIdempotent := by
  refine ⟨fun s off h => ⟨_, step_of_read h rfl⟩, fun s off w ho => ?_⟩
  rcases ho with rfl | ⟨hlo, hhi⟩ | ⟨rfl, h0⟩
  · exact writeUnlessBusy_twice rfl rfl
  · rcases Nat.lt_or_ge off 0x800 with h8 | h8
    · simp only [writeWord_qt_of_range ⟨hlo, h8⟩]
      exact writeUnlessBusy_twice rfl (writeQtEntry_twice _ _ _ s)
    · simp only [writeWord_blk_of_range ⟨h8, hhi⟩]
      exact writeUnlessBusy_twice rfl (writeBlkEntry_twice _ _ _ s)
  · simp only [writeWord_ctrl, writeCtrl_of_not_srst h0]

end Sys2Proof.Machine
end

section
/-! The QT, BLK and OUT windows with BUSY = 0 (R55 to R57). -/

namespace Sys2Proof.Machine

/-- An entry on the bus keeps its value: unsigned in the QT window, signed in the BLK window (R55, R56). -/
theorem toNat_qtBusWord (e : Entry) : (qtBusWord e).toNat = e.toNat := BitVec.toNat_setWidth_of_le (by decide)

theorem toInt_blkBusWord (e : Entry) : (blkBusWord e).toInt = e.toInt := BitVec.toInt_signExtend_of_le (by decide)

/-- A window read of a written entry with BUSY = 0 (R55 to R57). -/
theorem readWord_qt_written {t i : Nat} (ht : t < 4) (hi : i < 64) {s : State} (hb : s.busy = false) {e : Entry}
    (he : qtEntry s t i = some e) : readWord (0x400 + 0x100 * t + 4 * i) s = qtBusWord e := by
  rw [readWord_qt ht hi hb, he, Option.getD_some]

theorem readWord_blk_written {b i : Nat} (hlt : b < 8) (hi : i < 64) {s : State} (hb : s.busy = false) {e : Entry}
    (he : blkEntry s b i = some e) : readWord (0x800 + 0x100 * b + 4 * i) s = blkBusWord e := by
  rw [readWord_blk hlt hi hb, he, Option.getD_some]

theorem readWord_out_written {o i : Nat} (ho : o < 4) (hi : i < 64) {s : State} (hb : s.busy = false) {p : Pixel}
    (hp : outPixel s o i = some p) : readWord (0x1000 + 0x100 * o + 4 * i) s = pixelBusWord p := by
  rw [readWord_out ho hi hb, hp, Option.getD_some]

/-- Settles O32: a write is one `writeQtEntry`, a read one QT bus word. -/
theorem qtWindow : Obligations.QtWindow := by
  intro s t i ht hi hb
  refine ⟨fun v hw => ?_, fun e he hr => ?_⟩
  · refine ⟨writeQtEntry t i (v.setWidth 16) (turnTaken s), step_of_write hw ?_, rfl, ?_, fun k hk => ?_⟩
    · rw [writeWord_qt ht hi, writeUnlessBusy_idle (s := turnTaken s) hb]
    · exact ⟨_, Memory.read_write_same _ _ _, BitVec.toNat_setWidth ..⟩
    · exact Memory.read_write_other _ _ hk
  · exact ⟨_, step_of_read hr (readWord_qt_written ht hi (s := turnTaken s) hb he), toNat_qtBusWord e⟩

/-- Settles O33: a write is one `writeBlkEntry`, a read one BLK bus word. -/
theorem blkWindow : Obligations.BlkWindow := by
  intro s b i hlt hi hb
  refine ⟨fun v hw => ?_, fun e he hr => ?_⟩
  · refine ⟨writeBlkEntry b i (v.setWidth 16) (turnTaken s), step_of_write hw ?_, rfl, ?_, fun k hk => ?_⟩
    · rw [writeWord_blk hlt hi, writeUnlessBusy_idle (s := turnTaken s) hb]
    · exact ⟨_, Memory.read_write_same _ _ _, BitVec.toNat_setWidth ..⟩
    · exact Memory.read_write_other _ _ hk
  · exact ⟨_, step_of_read hr (readWord_blk_written hlt hi (s := turnTaken s) hb he), toInt_blkBusWord e⟩

/-- Settles O34: a read is one pixel bus word, lane by lane, and the window ignores writes. -/
theorem outWindow : Obligations.OutWindow := by
  intro s o i ho hi
  refine ⟨fun p hb hp hr => ?_, fun v hw => ?_⟩
  · exact ⟨_, step_of_read hr (readWord_out_written ho hi (s := turnTaken s) hb hp), byteLane_pixelBusWord p⟩
  · exact step_of_write hw (writeWord_readOnly (by omega) v _)

end Sys2Proof.Machine
end

section
/-! Reserved offsets and reserved bits (R59). -/

namespace Sys2Proof.Machine

/-- A word whose bits all lie below bit 4 has no reserved bit of STATUS, ERRCODE or QTDEF (R23, R24, R26). -/
theorem reservedBits_eq_zero {w : Word} (h : ∀ n, 4 ≤ n → w.getLsbD n = false) : w &&& ~~~0xF = 0 := by
  refine BitVec.eq_of_getLsbD_eq fun n hn => ?_
  by_cases h4 : n < 4
  · interval_cases n <;> simp
  · simp [h n (by omega)]

theorem ctrlWord_reservedBits (s : State) : ctrlWord s &&& ~~~0x2 = 0 := by
  rw [ctrlWord_eq]
  cases s.irqen <;> decide

theorem statusWord_reservedBits (s : State) : statusWord s &&& ~~~0xF = 0 :=
  reservedBits_eq_zero fun n hn => by
    rw [getLsbD_statusWord]
    simp [show n ≠ 0 ∧ n ≠ 1 ∧ n ≠ 2 ∧ n ≠ 3 by omega]

/-- A four-bit field fills ERRCODE and QTDEF up to bit 3. -/
theorem setWidth_reservedBits (f : BitVec 4) : f.setWidth 32 &&& ~~~0xF = 0 :=
  reservedBits_eq_zero fun n hn => by simp [BitVec.getLsbD_of_ge f n hn]

/-- The reserved bits of a written word are ignored (R22, R23, R26, R59). -/
theorem writeCtrl_ignores_reserved (w : Word) (s : State) : writeCtrl w s = writeCtrl (w &&& 0x3) s := by
  simp [writeCtrl]

theorem writeStatus_ignores_reserved (w : Word) (s : State) : writeStatus w s = writeStatus (w &&& 0xE) s := by
  simp [writeStatus_eq]

theorem setWidth_four_mask (w : Word) : w.setWidth 4 = (w &&& 0xF).setWidth 4 := by
  rw [BitVec.setWidth_and]
  exact (BitVec.and_allOnes).symm

/-- Settles O30: what the bus words and the register writes use of their bits. -/
theorem reservedOffsetsAndBits : Obligations.ReservedOffsetsAndBits := by
  refine ⟨fun s off w ho => ⟨fun h => ?_, fun h => ?_⟩, fun s => ?_, fun s w => ?_⟩
  · exact step_of_read h (readWord_reserved (by omega) _)
  · exact step_of_write h (writeWord_readOnly (by omega) w _)
  · exact ⟨ctrlWord_reservedBits s, statusWord_reservedBits s, setWidth_reservedBits s.errcode,
      setWidth_reservedBits s.qtdef⟩
  · refine ⟨writeCtrl_ignores_reserved w s, writeStatus_ignores_reserved w s, ?_⟩
    rw [writeWord_qtdef, writeWord_qtdef, setWidth_four_mask]

end Sys2Proof.Machine
end

section
/-! The decoder and the encoder are inverse to each other (R81 to R84). -/

namespace Sys2Proof

/-- The word the encoder writes is a word of the command's row (R84). -/
theorem row_accepts_encode (i : Instr) : i.row.accepts (encode i) = true := by
  cases i with
  | nop => exact Laws.RowMatch.nop
  | deq rd rs qt => exact Laws.RowMatch.deq rd rs qt
  | idct rd rs => exact Laws.RowMatch.idct rd rs
  | cconv ry rcb rcr ro h v hs vs => exact Laws.RowMatch.cconv ry rcb rcr ro h v hs vs
  | gray ry ro => exact Laws.RowMatch.gray ry ro
  | clr rd => exact Laws.RowMatch.clr rd
  | dqi rd rs qt => exact Laws.RowMatch.dqi rd rs qt

/-- The fields read back from an encoded command are the command's (R82). -/
theorem withFields_encode (i : Instr) : i.withFields (encode i) = i := by
  cases i with
  | nop => rfl
  | deq rd rs qt => simp only [Instr.withFields, encode, formatB_fields]
  | idct rd rs => simp only [Instr.withFields, encode, formatB_fields]
  | cconv ry rcb rcr ro h v hs vs => simp only [Instr.withFields, encode, formatC_fields]
  | gray ry ro => simp only [Instr.withFields, encode, formatC_fields]
  | clr rd => simp only [Instr.withFields, encode, formatB_fields]
  | dqi rd rs qt => simp only [Instr.withFields, encode, formatB_fields]

/-- Settles O1: the encoded word is of the command's row and holds its fields. -/
theorem decodeOfEncodeIsTheCommand : Obligations.DecodeOfEncodeIsTheCommand :=
  fun i => decode_eq_ok_iff.mpr ⟨row_accepts_encode i, withFields_encode i⟩

/-- Bits taken from a word and placed back where they stood are the word under their mask. -/
theorem place_extractLsb' (w : Word) (lo len : Nat) :
    place (w.extractLsb' lo len) lo = w &&& place (BitVec.allOnes len) lo := by
  refine BitVec.eq_of_getLsbD_eq fun n hn => ?_
  simp only [place, BitVec.getLsbD_shiftLeft, BitVec.getLsbD_setWidth, BitVec.getLsbD_extractLsb', BitVec.getLsbD_and,
    BitVec.getLsbD_allOnes]
  by_cases hlo : n < lo
  · simp [hlo]
  · rw [Nat.add_sub_cancel' (Nat.le_of_not_lt hlo)]
    grind

/-- Each field placed back is the word under the field's bits (R82). -/
@[simp] theorem place_fieldRd (w : Word) : place (bits3 (fieldRd w)) 25 = w &&& 0x0E000000 := place_extractLsb' w 25 3
@[simp] theorem place_fieldRs (w : Word) : place (bits3 (fieldRs w)) 22 = w &&& 0x01C00000 := place_extractLsb' w 22 3
@[simp] theorem place_fieldRcr (w : Word) : place (bits3 (fieldRcr w)) 19 = w &&& 0x00380000 := place_extractLsb' w 19 3
@[simp] theorem place_fieldQt (w : Word) : place (bits2 (fieldQt w)) 20 = w &&& 0x00300000 := place_extractLsb' w 20 2
@[simp] theorem place_fieldRo (w : Word) : place (bits2 (fieldRo w)) 17 = w &&& 0x00060000 := place_extractLsb' w 17 2
@[simp] theorem place_fieldH (w : Word) : place (bits1 (fieldH w)) 16 = w &&& 0x00010000 := place_extractLsb' w 16 1
@[simp] theorem place_fieldV (w : Word) : place (bits1 (fieldV w)) 15 = w &&& 0x00008000 := place_extractLsb' w 15 1
@[simp] theorem place_fieldHs (w : Word) : place (bits1 (fieldHs w)) 14 = w &&& 0x00004000 := place_extractLsb' w 14 1
@[simp] theorem place_fieldVs (w : Word) : place (bits1 (fieldVs w)) 13 = w &&& 0x00002000 := place_extractLsb' w 13 1

/-- An unused field is encoded as 0 (R84). -/
@[simp] theorem bits3_zero : bits3 0 = 0 := rfl
@[simp] theorem bits2_zero : bits2 0 = 0 := rfl
@[simp] theorem bits1_zero : bits1 0 = 0 := rfl

/-- A literal field's bits in place, to be evaluated. -/
theorem place_ofNat (n c lo : Nat) : place (BitVec.ofNat n c) lo = (BitVec.ofNat n c).setWidth 32 <<< lo := rfl

/-- The encoder puts the bits a row leaves free into the row's match (R84): the row's fields are exactly the bits outside
its mask. -/
theorem encode_withFields (i : Instr) (w : Word) :
    encode (i.withFields w) = i.row.pattern ||| (w &&& ~~~i.row.mask) := by
  cases i <;> rw [Instr.withFields, encode, Instr.row]
  case nop => simp [rowNop]
  case deq => simp [formatB, rowDeq, place_ofNat, BitVec.or_assoc, ← BitVec.and_or_distrib_left]
  case idct => simp [formatB, rowIdct, place_ofNat, BitVec.or_assoc, ← BitVec.and_or_distrib_left]
  case cconv => simp [formatC, rowCconv, place_ofNat, BitVec.or_assoc, ← BitVec.and_or_distrib_left]
  case gray => simp [formatC, rowGray, place_ofNat, BitVec.or_assoc, ← BitVec.and_or_distrib_left]
  case clr => simp [formatB, rowClr, place_ofNat]
  case dqi => simp [formatB, rowDqi, place_ofNat, BitVec.or_assoc, ← BitVec.and_or_distrib_left]

/-- A word a row accepts is the row's match and the bits outside its mask (R84). -/
theorem Row.word_eq {r : Row} {w : Word} (h : r.accepts w = true) : r.pattern ||| (w &&& ~~~r.mask) = w := by
  rw [← Row.accepts_iff.mp h, ← BitVec.and_or_distrib_left, BitVec.or_not_self, BitVec.and_allOnes]

/-- Settles O2: the fields of an accepted word fill the bits outside its row's mask. -/
theorem encodeOfDecodeIsTheWord : Obligations.EncodeOfDecodeIsTheWord := by
  intro w i h
  obtain ⟨hrow, hfields⟩ := decode_eq_ok_iff.mp h
  calc encode i = encode (i.withFields w) := by rw [hfields]
    _ = i.row.pattern ||| (w &&& ~~~i.row.mask) := encode_withFields i w
    _ = w := Row.word_eq hrow

end Sys2Proof
end

section
/-! Which words are commands, which are illegal, and what their fields are (R82 to R85, R90). -/

namespace Sys2Proof

/-- A word of a command's row decodes to that command with the word's fields (R84). -/
theorem decode_withFields {w : Word} (i : Instr) (h : w &&& i.row.mask = i.row.pattern) :
    decode w = .ok (i.withFields w) := by
  refine decode_eq_ok_iff.mpr ⟨Row.accepts_iff.mpr ?_, ?_⟩
  · cases i <;> exact h
  · cases i <;> rfl

/-- A decoded word is a word of its command's row (R84). -/
theorem row_of_decode {w : Word} {i : Instr} (h : decode w = .ok i) : w &&& i.row.mask = i.row.pattern :=
  Row.accepts_iff.mp (decode_eq_ok_iff.mp h).1

/-- Settles O3: each row is the row of its command, whatever the operands. -/
theorem wordIsCommandExactlyWhenMaskMatches : Obligations.WordIsCommandExactlyWhenMaskMatches := by
  intro w
  refine ⟨⟨?_, ?_⟩, ⟨?_, ?_⟩, ⟨?_, ?_⟩, ⟨?_, ?_⟩, ⟨?_, ?_⟩, ⟨?_, ?_⟩, ⟨?_, ?_⟩⟩
  · exact decode_withFields .nop
  · exact row_of_decode
  · exact fun h => ⟨_, _, _, decode_withFields (.deq 0 0 0) h⟩
  · rintro ⟨_, _, _, h⟩
    exact row_of_decode h
  · exact fun h => ⟨_, _, decode_withFields (.idct 0 0) h⟩
  · rintro ⟨_, _, h⟩
    exact row_of_decode h
  · exact fun h => ⟨_, _, _, _, _, _, _, _, decode_withFields (.cconv 0 0 0 0 0 0 0 0) h⟩
  · rintro ⟨_, _, _, _, _, _, _, _, h⟩
    exact row_of_decode h
  · exact fun h => ⟨_, _, decode_withFields (.gray 0 0) h⟩
  · rintro ⟨_, _, h⟩
    exact row_of_decode h
  · exact fun h => ⟨_, decode_withFields (.clr 0) h⟩
  · rintro ⟨_, h⟩
    exact row_of_decode h
  · exact fun h => ⟨_, _, _, decode_withFields (.dqi 0 0 0) h⟩
  · rintro ⟨_, _, _, h⟩
    exact row_of_decode h

/-- The number a word's bits `lo` to `lo + len - 1` hold (R82). -/
theorem toNat_extractLsb'_eq (w : Word) (lo len : Nat) : (w.extractLsb' lo len).toNat = w.toNat / 2 ^ lo % 2 ^ len := by
  rw [BitVec.extractLsb'_toNat, Nat.shiftRight_eq_div_pow]

/-- Each field as a number (R80, R82). -/
theorem fieldOpc_eq (w : Word) : fieldOpc w = w.toNat / 2 ^ 28 % 16 := toNat_extractLsb'_eq w 28 4
theorem val_fieldRd (w : Word) : (fieldRd w).val = w.toNat / 2 ^ 25 % 8 := toNat_extractLsb'_eq w 25 3
theorem val_fieldRs (w : Word) : (fieldRs w).val = w.toNat / 2 ^ 22 % 8 := toNat_extractLsb'_eq w 22 3
theorem val_fieldRcr (w : Word) : (fieldRcr w).val = w.toNat / 2 ^ 19 % 8 := toNat_extractLsb'_eq w 19 3
theorem val_fieldQt (w : Word) : (fieldQt w).val = w.toNat / 2 ^ 20 % 4 := toNat_extractLsb'_eq w 20 2
theorem val_fieldRo (w : Word) : (fieldRo w).val = w.toNat / 2 ^ 17 % 4 := toNat_extractLsb'_eq w 17 2
theorem val_fieldH (w : Word) : (fieldH w).val = w.toNat / 2 ^ 16 % 2 := toNat_extractLsb'_eq w 16 1
theorem val_fieldV (w : Word) : (fieldV w).val = w.toNat / 2 ^ 15 % 2 := toNat_extractLsb'_eq w 15 1
theorem val_fieldHs (w : Word) : (fieldHs w).val = w.toNat / 2 ^ 14 % 2 := toNat_extractLsb'_eq w 14 1
theorem val_fieldVs (w : Word) : (fieldVs w).val = w.toNat / 2 ^ 13 % 2 := toNat_extractLsb'_eq w 13 1

/-- Settles O4: a decoded command has the word's fields, and each field is the number of its bits. -/
theorem fieldsAreTheNumbersOfTheirBits : Obligations.FieldsAreTheNumbersOfTheirBits := by
  intro w i h
  rw [← (decode_eq_ok_iff.mp h).2]
  cases i with
  | nop => trivial
  | deq rd rs qt => exact ⟨val_fieldRd w, val_fieldRs w, val_fieldQt w⟩
  | idct rd rs => exact ⟨val_fieldRd w, val_fieldRs w⟩
  | cconv ry rcb rcr ro h v hs vs =>
    exact ⟨val_fieldRd w, val_fieldRs w, val_fieldRcr w, val_fieldRo w, val_fieldH w, val_fieldV w,
      congrArg (1 + ·) (val_fieldHs w), congrArg (1 + ·) (val_fieldVs w)⟩
  | gray ry ro => exact ⟨val_fieldRd w, val_fieldRo w⟩
  | clr rd => exact val_fieldRd w
  | dqi rd rs qt => exact ⟨val_fieldRd w, val_fieldRs w, val_fieldQt w⟩

theorem row_mem_opcodeTable (i : Instr) : i.row ∈ opcodeTable := by
  cases i <;> simp [Instr.row, opcodeTable]

/-- Every row of the table is the row of a command (R83, R84). -/
theorem exists_instr_of_mem_opcodeTable {r : Row} (h : r ∈ opcodeTable) : ∃ i : Instr, i.row = r := by
  simp only [opcodeTable, List.mem_cons, List.not_mem_nil, or_false] at h
  rcases h with rfl | rfl | rfl | rfl | rfl | rfl | rfl
  · exact ⟨.nop, rfl⟩
  · exact ⟨.deq 0 0 0, rfl⟩
  · exact ⟨.idct 0 0, rfl⟩
  · exact ⟨.cconv 0 0 0 0 0 0 0 0, rfl⟩
  · exact ⟨.gray 0 0, rfl⟩
  · exact ⟨.clr 0, rfl⟩
  · exact ⟨.dqi 0 0 0, rfl⟩

/-- A word is illegal exactly when no row matches it (R85). -/
theorem decode_error_iff {w : Word} : (∃ e, decode w = .error e) ↔ ∀ r ∈ opcodeTable, w &&& r.mask ≠ r.pattern := by
  constructor
  · rintro ⟨e, he⟩ r hr hmatch
    obtain ⟨i, rfl⟩ := exists_instr_of_mem_opcodeTable hr
    rw [decode_withFields i hmatch] at he
    cases he
  · intro h
    cases hd : decode w with
    | ok i => exact absurd (row_of_decode hd) (h _ (row_mem_opcodeTable i))
    | error e => exact ⟨e, rfl⟩

/-- OPC 0x7 to 0xF is reserved (R85). -/
theorem decode_of_reservedOpcode {w : Word} (h : 7 ≤ fieldOpc w) : decode w = .error .reservedOpcode := by
  unfold decode
  split
  case h_8 => rfl
  all_goals omega

/-- Only the word 0 is NOP (R85). -/
theorem decode_eq_nop_iff {w : Word} : decode w = .ok .nop ↔ w = 0 := by
  constructor
  · intro h
    exact (encodeOfDecodeIsTheWord w .nop h).symm
  · rintro rfl
    exact decodeOfEncodeIsTheCommand .nop

/-- Settles O5: thirteen closed words, by running the decoder. -/
theorem exampleWordsDecode : Obligations.ExampleWordsDecode := by
  unfold Obligations.ExampleWordsDecode
  decide

namespace Machine

/-- With no error recorded, recording one sets ERR and the code (R204). -/
theorem recordError_first {s : State} (h : s.err = false) (c : ErrorCode) :
    recordError c s = { s with err := true, errcode := c.code } := by
  simp [recordError, h]

/-- The engine step of an illegal word, with no error recorded before it (R85, R202). -/
theorem engineStep_illegal {s : State} (he : s.err = false) {e : Reject} (hd : decode s.pend = .error e) :
    engineStep s = .next { s with busy := false, err := true, errcode := 1 } := by
  simp [engineStep, he, hd, recordError_first, takeCommand, ErrorCode.code]

/-- The engine step of a legal word, with no error recorded before it (R202). -/
theorem engineStep_legal {s : State} (he : s.err = false) {i : Instr} (hd : decode s.pend = .ok i) :
    engineStep s = exec i (takeCommand s) := by
  simp [engineStep, he, hd]

/-- Settles O6: a word is rejected where it is of no row, and then its engine step only records error 1. -/
theorem illegalWordRecordsErrorOne : Obligations.IllegalWordRecordsErrorOne := by
  refine ⟨fun _ => decode_error_iff, fun w h => decode_of_reservedOpcode ?_, fun _ => decode_eq_nop_iff, ?_⟩
  · have := w.isLt
    rw [fieldOpc_eq]
    omega
  · intro s hn he hrows
    obtain ⟨e, hd⟩ := decode_error_iff.mpr hrows
    rw [step_of_engineNext hn]
    exact engineStep_illegal (s := turnTaken s) he hd

/-- DEQ and DQI on an undefined slot (R86). -/
theorem exec_deq_undefined {rd rs : Fin 8} {qt : Fin 4} {s : State} (h : slotDefined s qt = false) :
    exec (.deq rd rs qt) s = .next (recordError .qtUndefined s) := by
  simp [exec, execDeq, h]

theorem exec_dqi_undefined {rd rs : Fin 8} {qt : Fin 4} {s : State} (h : slotDefined s qt = false) :
    exec (.dqi rd rs qt) s = .next (recordError .qtUndefined s) := by
  simp [exec, execDqi, h]

/-- CCONV with an offset not below its factor (R86). -/
theorem exec_cconv_badSampling {ry rcb rcr : Fin 8} {ro : Fin 4} {h v hs vs : Fin 2} (hl : offsetsLegal h v hs vs = false)
    (s : State) : exec (.cconv ry rcb rcr ro h v hs vs) s = .next (recordError .badSampling s) := by
  simp [exec, execCconv, hl]

/-- A command whose own check records an error changes BUSY, ERR and ERRCODE only (R86, R208). -/
theorem step_of_failedCheck {s : State} {i : Instr} {c : ErrorCode} (hn : EngineNext s = true) (he : s.err = false)
    (hd : decode s.pend = .ok i)
    (hx : exec i (takeCommand (turnTaken s)) = .next (recordError c (takeCommand (turnTaken s)))) :
    step s = .next { turnTaken s with busy := false, err := true, errcode := c.code } := by
  rw [step_of_engineNext hn, engineStep_legal (s := turnTaken s) he hd, hx,
    recordError_first (s := takeCommand (turnTaken s)) he]
  rfl

/-- Settles O19: each failed check records its code and nothing else. -/
theorem failedChecksRecordTheirErrors : Obligations.FailedChecksRecordTheirErrors := by
  constructor
  · rintro s rd rs qt hn he hq (hd | hd)
    · exact step_of_failedCheck hn he hd (exec_deq_undefined hq)
    · exact step_of_failedCheck hn he hd (exec_dqi_undefined hq)
  · intro s ry rcb rcr ro h v hs vs hn he hoff hd
    have hl : offsetsLegal h v hs vs = false := by
      simp only [offsetsLegal, Bool.and_eq_false_iff, decide_eq_false_iff_not]
      omega
    exact step_of_failedCheck hn he hd (exec_cconv_badSampling hl _)

end Machine
end Sys2Proof
end

section
/-! A wait: its polls, the engine's turn, and the poll after it (R89, log 21). -/

namespace Sys2Proof.Machine

/-- A STATUS read next returns STATUS and changes nothing but the model's own fields (R23, R58). -/
theorem step_of_poll {s : State} {rest : List Event} (h : s.inputs = lw 0x008 :: rest) :
    step s = .next { s with inputs := rest, rdata := statusWord s, draws := s.draws + 1 } := by
  have hr : ReadsNext s 0x008 := ⟨rfl, by decide, by rw [h]; rfl⟩
  rw [step_of_read hr (readWord_status _)]
  simp [turnTaken, h, statusWord]

theorem statusWord_busy (s : State) : (statusWord s).getLsbD 0 = s.busy := by
  rw [getLsbD_statusWord]
  simp

/-- Some steps after others. -/
theorem runSteps_add {s t : State} {n : Nat} (h : runSteps n s = .next t) (m : Nat) :
    runSteps (n + m) s = runSteps m t := by
  induction n generalizing s with
  | zero =>
    cases h
    rw [Nat.zero_add]
  | succ n ih =>
    cases hs : step s with
    | next u =>
      rw [runSteps_succ hs] at h
      rw [Nat.add_right_comm, runSteps_succ hs, ih h]
    | fault r => simp [runSteps, hs] at h
    | refused r => simp [runSteps, hs] at h

/-- Polls while a command is pending leave it pending. -/
theorem runSteps_polls (n : Nat) {s : State} {rest : List Event} (hb : s.busy = true)
    (hi : s.inputs = List.replicate n (lw 0x008) ++ rest) :
    ∃ u, runSteps n s = .next u ∧ u.busy = true ∧ u.inputs = rest := by
  induction n generalizing s with
  | zero => exact ⟨s, rfl, hb, hi⟩
  | succ n ih =>
    rw [runSteps_succ (step_of_poll hi)]
    exact ih hb rfl

/-- Settles O14: a poll reads BUSY, which stays 1 over the polls before the engine step and is 0 after it. -/
theorem waitEndsWhenTheEngineStepIsTaken : Obligations.WaitEndsWhenTheEngineStepIsTaken := by
  intro s k rest hb hi
  rw [waitPolls, List.append_assoc] at hi
  constructor
  · intro j hj
    obtain ⟨m, rfl⟩ := Nat.exists_eq_add_of_lt hj
    rw [Nat.add_assoc, List.replicate_add, List.append_assoc] at hi
    obtain ⟨u, hu, hbu, hiu⟩ := runSteps_polls j hb hi
    rw [runSteps_add hu, runSteps_succ (step_of_poll hiu)]
    exact ⟨_, rfl, (statusWord_busy u).trans hbu⟩
  · obtain ⟨u, hu, hbu, hiu⟩ := runSteps_polls k hb hi
    have hn : EngineNext u = true := by simp [EngineNext, hbu, hiu]
    obtain ⟨v, hv⟩ := engineStep_next (turnTaken u)
    obtain ⟨-, hbv, -, -, -, hiv, -⟩ := engineStep_keeps hv
    have hiv' : v.inputs = lw 0x008 :: rest := by simp [hiv, hiu]
    rw [runSteps_add hu, runSteps_succ ((step_of_engineNext hn).trans hv), runSteps_succ (step_of_poll hiv')]
    exact ⟨_, rfl, (statusWord_busy v).trans hbv, hbv, rfl⟩

end Sys2Proof.Machine
end

section
/-! The words of the formats as numbers, and the assembler's words and refusals (R81, R87, R88; log 20). -/

namespace Sys2Proof

/-- A field in place is its number times the weight of its lowest bit. -/
theorem toNat_place {n : Nat} (v : BitVec n) {lo : Nat} (h : lo + n ≤ 32) : (place v lo).toNat = v.toNat * 2 ^ lo := by
  have hn : v.toNat < 2 ^ 32 := v.isLt.trans_le (Nat.pow_le_pow_right (by decide) (by omega))
  have hlo : v.toNat * 2 ^ lo < 2 ^ 32 :=
    calc v.toNat * 2 ^ lo < 2 ^ n * 2 ^ lo := Nat.mul_lt_mul_of_pos_right v.isLt (Nat.two_pow_pos lo)
      _ = 2 ^ (lo + n) := by rw [← Nat.pow_add, Nat.add_comm]
      _ ≤ 2 ^ 32 := Nat.pow_le_pow_right (by decide) h
  rw [place, BitVec.toNat_shiftLeft, BitVec.toNat_setWidth, Nat.mod_eq_of_lt hn, Nat.shiftLeft_eq, Nat.mod_eq_of_lt hlo]

/-- A field placed below the bits a word uses adds its number. -/
theorem toNat_or_place {n a lo : Nat} {w : Word} {v : BitVec n} (hw : w.toNat = a) (h : lo + n ≤ 32)
    (ha : 2 ^ (lo + n) ∣ a) : (w ||| place v lo).toNat = a + v.toNat * 2 ^ lo := by
  obtain ⟨b, rfl⟩ := ha
  have hlt : v.toNat * 2 ^ lo < 2 ^ (lo + n) := by
    rw [Nat.pow_add, Nat.mul_comm]
    exact Nat.mul_lt_mul_of_pos_left v.isLt (Nat.two_pow_pos lo)
  rw [BitVec.toNat_or, hw, toNat_place v h, Nat.two_pow_add_eq_or_of_lt hlt]

theorem eq_ofNat_of_toNat_eq {w : Word} {a : Nat} (h : w.toNat = a) : w = BitVec.ofNat 32 a := by
  rw [← h, BitVec.ofNat_toNat, BitVec.setWidth_eq]

/-- A word of format B as a number (R81). -/
theorem formatB_eq_ofNat (opc : BitVec 4) (rd rs : Fin 8) (qt : Fin 4) :
    formatB opc rd rs qt
      = BitVec.ofNat 32 (opc.toNat * 2 ^ 28 + rd.val * 2 ^ 25 + rs.val * 2 ^ 22 + qt.val * 2 ^ 20) := by
  have h28 : (place opc 28).toNat = opc.toNat * 2 ^ 28 := toNat_place opc (by decide)
  have h25 := toNat_or_place (v := bits3 rd) (lo := 25) h28 (by decide) (by omega)
  have h22 := toNat_or_place (v := bits3 rs) (lo := 22) h25 (by decide) (by omega)
  exact eq_ofNat_of_toNat_eq (toNat_or_place (v := bits2 qt) (lo := 20) h22 (by decide) (by omega))

/-- A word of format C as a number (R81). -/
theorem formatC_eq_ofNat (opc : BitVec 4) (ry rcb rcr : Fin 8) (ro : Fin 4) (h v hs vs : Fin 2) :
    formatC opc ry rcb rcr ro h v hs vs
      = BitVec.ofNat 32 (opc.toNat * 2 ^ 28 + ry.val * 2 ^ 25 + rcb.val * 2 ^ 22 + rcr.val * 2 ^ 19 + ro.val * 2 ^ 17
          + h.val * 2 ^ 16 + v.val * 2 ^ 15 + hs.val * 2 ^ 14 + vs.val * 2 ^ 13) := by
  have h28 : (place opc 28).toNat = opc.toNat * 2 ^ 28 := toNat_place opc (by decide)
  have h25 := toNat_or_place (v := bits3 ry) (lo := 25) h28 (by decide) (by omega)
  have h22 := toNat_or_place (v := bits3 rcb) (lo := 22) h25 (by decide) (by omega)
  have h19 := toNat_or_place (v := bits3 rcr) (lo := 19) h22 (by decide) (by omega)
  have h17 := toNat_or_place (v := bits2 ro) (lo := 17) h19 (by decide) (by omega)
  have h16 := toNat_or_place (v := bits1 h) (lo := 16) h17 (by decide) (by omega)
  have h15 := toNat_or_place (v := bits1 v) (lo := 15) h16 (by decide) (by omega)
  have h14 := toNat_or_place (v := bits1 hs) (lo := 14) h15 (by decide) (by omega)
  exact eq_ofNat_of_toNat_eq (toNat_or_place (v := bits1 vs) (lo := 13) h14 (by decide) (by omega))

/-- A number in range is its field's number, and a field's number is read as the field. -/
theorem val_field8 {n : Nat} (h : n < 8) : (field8 n).val = n := Nat.mod_eq_of_lt h
theorem val_field4 {n : Nat} (h : n < 4) : (field4 n).val = n := Nat.mod_eq_of_lt h
theorem val_field2 {n : Nat} (h : n < 2) : (field2 n).val = n := Nat.mod_eq_of_lt h
@[simp] theorem field8_val (n : Fin 8) : field8 n = n := Fin.ofNat_val_eq_self n
@[simp] theorem field4_val (n : Fin 4) : field4 n = n := Fin.ofNat_val_eq_self n
@[simp] theorem field2_val (n : Fin 2) : field2 n = n := Fin.ofNat_val_eq_self n

/-- Which lines of each form an assembler accepts (R87). -/
theorem wellFormed_deq_iff {d b q : Nat} : (AsmLine.deq d b q).wellFormed = true ↔ d < 8 ∧ b < 8 ∧ q < 4 := by
  simp [AsmLine.wellFormed, AsmLine.expand, isBuffer, isSlot, and_assoc]

theorem wellFormed_dqi_iff {d b q : Nat} : (AsmLine.dqi d b q).wellFormed = true ↔ d < 8 ∧ b < 8 ∧ q < 4 :=
  wellFormed_deq_iff

theorem wellFormed_idct_iff {d b : Nat} : (AsmLine.idct d b).wellFormed = true ↔ d < 8 ∧ b < 8 := by
  simp [AsmLine.wellFormed, AsmLine.expand, isBuffer]

theorem wellFormed_gray_iff {o y : Nat} : (AsmLine.gray o y).wellFormed = true ↔ o < 4 ∧ y < 8 := by
  simp [AsmLine.wellFormed, AsmLine.expand, isBuffer, isOutput]

theorem wellFormed_clr_iff {d : Nat} : (AsmLine.clr d).wellFormed = true ↔ d < 8 := by
  simp [AsmLine.wellFormed, AsmLine.expand, isBuffer]

theorem wellFormed_cconv_iff {o y cb cr h v hsf vsf : Nat} :
    (AsmLine.cconv o y cb cr h v hsf vsf).wellFormed = true
      ↔ o < 4 ∧ y < 8 ∧ cb < 8 ∧ cr < 8 ∧ (hsf = 1 ∨ hsf = 2) ∧ (vsf = 1 ∨ vsf = 2) ∧ h < hsf ∧ v < vsf := by
  simp [AsmLine.wellFormed, AsmLine.expand, isBuffer, isOutput, isFactor, and_assoc]

/-- An assembler writes an accepted line's word and refuses every other line (R87). -/
theorem assemble_eq_ite {l : AsmLine} {p : Prop} [Decidable p] {w : Word} (hp : l.wellFormed = true ↔ p)
    (hw : p → l.expand.coreWord = some w) : assemble l = if p then some w else none := by
  unfold assemble
  by_cases h : p
  · rw [if_pos (hp.mpr h), if_pos h, hw h]
  · rw [if_neg (mt hp.mp h), if_neg h]

/-- The core lines that an assembler accepts, with their words (R87). -/
theorem assemble_deq (d b q : Nat) : assemble (.deq d b q) =
    if d < 8 ∧ b < 8 ∧ q < 4 then some (BitVec.ofNat 32 (0x10000000 + d * 2 ^ 25 + b * 2 ^ 22 + q * 2 ^ 20)) else none := by
  refine assemble_eq_ite wellFormed_deq_iff ?_
  rintro ⟨hd, hb, hq⟩
  simp [AsmLine.expand, AsmLine.coreWord, encode, formatB_eq_ofNat, val_field8 hd, val_field8 hb, val_field4 hq]

theorem assemble_dqi (d b q : Nat) : assemble (.dqi d b q) =
    if d < 8 ∧ b < 8 ∧ q < 4 then some (BitVec.ofNat 32 (0x60000000 + d * 2 ^ 25 + b * 2 ^ 22 + q * 2 ^ 20)) else none := by
  refine assemble_eq_ite wellFormed_dqi_iff ?_
  rintro ⟨hd, hb, hq⟩
  simp [AsmLine.expand, AsmLine.coreWord, encode, formatB_eq_ofNat, val_field8 hd, val_field8 hb, val_field4 hq]

theorem assemble_idct (d b : Nat) : assemble (.idct d b) =
    if d < 8 ∧ b < 8 then some (BitVec.ofNat 32 (0x20000000 + d * 2 ^ 25 + b * 2 ^ 22)) else none := by
  refine assemble_eq_ite wellFormed_idct_iff ?_
  rintro ⟨hd, hb⟩
  simp [AsmLine.expand, AsmLine.coreWord, encode, formatB_eq_ofNat, val_field8 hd, val_field8 hb]

theorem assemble_gray (o y : Nat) : assemble (.gray o y) =
    if o < 4 ∧ y < 8 then some (BitVec.ofNat 32 (0x40000000 + y * 2 ^ 25 + o * 2 ^ 17)) else none := by
  refine assemble_eq_ite wellFormed_gray_iff ?_
  rintro ⟨ho, hy⟩
  simp [AsmLine.expand, AsmLine.coreWord, encode, formatC_eq_ofNat, val_field8 hy, val_field4 ho]

theorem assemble_clr (d : Nat) : assemble (.clr d) =
    if d < 8 then some (BitVec.ofNat 32 (0x50000000 + d * 2 ^ 25)) else none := by
  refine assemble_eq_ite wellFormed_clr_iff ?_
  intro hd
  simp [AsmLine.expand, AsmLine.coreWord, encode, formatB_eq_ofNat, val_field8 hd]

theorem assemble_cconv (o y cb cr h v hsf vsf : Nat) : assemble (.cconv o y cb cr h v hsf vsf) =
    if o < 4 ∧ y < 8 ∧ cb < 8 ∧ cr < 8 ∧ (hsf = 1 ∨ hsf = 2) ∧ (vsf = 1 ∨ vsf = 2) ∧ h < hsf ∧ v < vsf then
      some (BitVec.ofNat 32 (0x30000000 + y * 2 ^ 25 + cb * 2 ^ 22 + cr * 2 ^ 19 + o * 2 ^ 17 + h * 2 ^ 16 + v * 2 ^ 15
        + (hsf - 1) * 2 ^ 14 + (vsf - 1) * 2 ^ 13))
    else none := by
  refine assemble_eq_ite wellFormed_cconv_iff ?_
  rintro ⟨ho, hy, hcb, hcr, hhsf, hvsf, hh, hv⟩
  simp [AsmLine.expand, AsmLine.coreWord, encode, formatC_eq_ofNat, val_field8 hy, val_field8 hcb, val_field8 hcr,
    val_field4 ho, val_field2 (n := h) (by omega), val_field2 (n := v) (by omega), val_field2 (n := hsf - 1) (by omega),
    val_field2 (n := vsf - 1) (by omega)]

theorem assemble_eq_some_iff {l : AsmLine} {w : Word} :
    assemble l = some w ↔ l.wellFormed = true ∧ l.expand.coreWord = some w := by
  simp [assemble]

/-- An accepted CCONV line has its offsets below its factors (R86, R87). -/
theorem offsetsLegal_of_wellFormed {o y cb cr h v hsf vsf : Nat}
    (hl : (AsmLine.cconv o y cb cr h v hsf vsf).wellFormed = true) :
    offsetsLegal (field2 h) (field2 v) (field2 (hsf - 1)) (field2 (vsf - 1)) = true := by
  obtain ⟨-, -, -, -, hhsf, hvsf, hh, hv⟩ := wellFormed_cconv_iff.mp hl
  rw [Machine.offsetsLegal_iff, val_field2 (n := h) (by omega), val_field2 (n := v) (by omega),
    val_field2 (n := hsf - 1) (by omega), val_field2 (n := vsf - 1) (by omega)]
  omega

/-- The word of a well-formed command decodes to a well-formed command. -/
theorem decode_of_encoded {i : Instr} {w : Word} (hw : some (encode i) = some w) (hi : i.wellFormed = true) :
    ∃ j, decode w = .ok j ∧ j.wellFormed = true := by
  obtain rfl := Option.some.inj hw
  exact ⟨i, decodeOfEncodeIsTheCommand i, hi⟩

theorem decode_of_assemble_cconv {o y cb cr h v hsf vsf : Nat} {w : Word}
    (ha : assemble (.cconv o y cb cr h v hsf vsf) = some w) : ∃ i, decode w = .ok i ∧ i.wellFormed = true := by
  obtain ⟨hl, hw⟩ := assemble_eq_some_iff.mp ha
  exact decode_of_encoded hw (offsetsLegal_of_wellFormed hl)

/-- An accepted line is a raw word or gives the word of a well-formed command; a pseudo-command does so as its CCONV (R87,
R88). -/
theorem word_or_decode_of_assemble {l : AsmLine} {w : Word} (ha : assemble l = some w) :
    l = .word w ∨ ∃ i, decode w = .ok i ∧ i.wellFormed = true := by
  obtain ⟨-, hw⟩ := assemble_eq_some_iff.mp ha
  cases l with
  | word v => exact .inl (congrArg AsmLine.word (Option.some.inj hw))
  | nop => exact .inr (decode_of_encoded (i := .nop) hw rfl)
  | deq d b q => exact .inr (decode_of_encoded (i := .deq _ _ _) hw rfl)
  | idct d b => exact .inr (decode_of_encoded (i := .idct _ _) hw rfl)
  | gray o y => exact .inr (decode_of_encoded (i := .gray _ _) hw rfl)
  | clr d => exact .inr (decode_of_encoded (i := .clr _) hw rfl)
  | dqi d b q => exact .inr (decode_of_encoded (i := .dqi _ _ _) hw rfl)
  | cconv o y cb cr h v hsf vsf => exact .inr (decode_of_assemble_cconv ha)
  | cconv444 o y cb cr => exact .inr (decode_of_assemble_cconv (h := 0) (v := 0) (hsf := 1) (vsf := 1) ha)
  | cconv422 o y cb cr h => exact .inr (decode_of_assemble_cconv (h := h) (v := 0) (hsf := 2) (vsf := 1) ha)
  | cconv440 o y cb cr v => exact .inr (decode_of_assemble_cconv (h := 0) (v := v) (hsf := 1) (vsf := 2) ha)
  | cconv420 o y cb cr h v => exact .inr (decode_of_assemble_cconv (h := h) (v := v) (hsf := 2) (vsf := 2) ha)

/-- The line of a CCONV with legal offsets is a CCONV line (R87). -/
theorem disassemble_cconv {ry rcb rcr : Fin 8} {ro : Fin 4} {h v hs vs : Fin 2} (hl : offsetsLegal h v hs vs = true) :
    disassemble (.cconv ry rcb rcr ro h v hs vs)
      = .cconv ro ry rcb rcr h v (samplingFactor hs) (samplingFactor vs) := if_pos hl

/-- A sampling factor is 1 or 2, and one less than it is its bit (R82). -/
theorem samplingFactor_cases (bit : Fin 2) : samplingFactor bit = 1 ∨ samplingFactor bit = 2 := by
  unfold samplingFactor
  omega

@[simp] theorem samplingFactor_sub_one (bit : Fin 2) : samplingFactor bit - 1 = bit.val := Nat.add_sub_cancel_left _ _

/-- A well-formed command's line assembles to the command's word (R87). -/
theorem assemble_disassemble {i : Instr} (hi : i.wellFormed = true) : assemble (disassemble i) = some (encode i) := by
  cases i with
  | nop => rfl
  | deq rd rs qt =>
    exact assemble_eq_some_iff.mpr ⟨wellFormed_deq_iff.mpr ⟨rd.isLt, rs.isLt, qt.isLt⟩,
      by simp [disassemble, AsmLine.expand, AsmLine.coreWord]⟩
  | idct rd rs =>
    exact assemble_eq_some_iff.mpr ⟨wellFormed_idct_iff.mpr ⟨rd.isLt, rs.isLt⟩,
      by simp [disassemble, AsmLine.expand, AsmLine.coreWord]⟩
  | cconv ry rcb rcr ro h v hs vs =>
    obtain ⟨hh, hv⟩ := Machine.offsetsLegal_iff.mp hi
    rw [disassemble_cconv hi]
    exact assemble_eq_some_iff.mpr ⟨wellFormed_cconv_iff.mpr ⟨ro.isLt, ry.isLt, rcb.isLt, rcr.isLt,
      samplingFactor_cases hs, samplingFactor_cases vs, hh, hv⟩, by simp [AsmLine.expand, AsmLine.coreWord]⟩
  | gray ry ro =>
    exact assemble_eq_some_iff.mpr ⟨wellFormed_gray_iff.mpr ⟨ro.isLt, ry.isLt⟩,
      by simp [disassemble, AsmLine.expand, AsmLine.coreWord]⟩
  | clr rd =>
    exact assemble_eq_some_iff.mpr ⟨wellFormed_clr_iff.mpr rd.isLt,
      by simp [disassemble, AsmLine.expand, AsmLine.coreWord]⟩
  | dqi rd rs qt =>
    exact assemble_eq_some_iff.mpr ⟨wellFormed_dqi_iff.mpr ⟨rd.isLt, rs.isLt, qt.isLt⟩,
      by simp [disassemble, AsmLine.expand, AsmLine.coreWord]⟩

/-- Only a CCONV the assembler refuses has a raw word for its line (R87). -/
theorem disassemble_ne_word {i : Instr} (hi : i.wellFormed = true) (w : Word) : disassemble i ≠ .word w := by
  cases i with
  | cconv ry rcb rcr ro h v hs vs =>
    rw [disassemble_cconv hi]
    exact AsmLine.noConfusion
  | _ => exact AsmLine.noConfusion

/-- Settles O7: the lines one by one, and both directions between accepted lines and well-formed commands. -/
theorem assemblerWritesExactlyTheWellFormedCommands : Obligations.AssemblerWritesExactlyTheWellFormedCommands :=
  ⟨rfl, assemble_deq, assemble_idct, assemble_cconv, assemble_gray, assemble_clr, assemble_dqi, fun _ => rfl,
    fun _ _ _ _ => rfl, fun _ _ _ _ _ => rfl, fun _ _ _ _ _ => rfl, fun _ _ _ _ _ _ => rfl,
    fun _ _ => word_or_decode_of_assemble, fun _ hi => ⟨assemble_disassemble hi, disassemble_ne_word hi⟩⟩

end Sys2Proof
end

section
/-! Who writes QT (R103). -/

namespace Sys2Proof.Machine

/-- A legal write keeps QT, or is one of the QT window with BUSY = 0 (R28, R60). -/
theorem writeWord_qt_cases (off : Nat) (w : Word) (s : State) :
    (writeWord off w s).qt = s.qt ∨ (s.busy = false ∧ 0x400 ≤ off ∧ off < 0x800) := by
  rcases writeWord_effects off w s with e | ⟨_, _, e⟩ | ⟨_, _, e⟩ | ⟨_, _, e⟩ | ⟨_, _, e⟩
    | ⟨_, e⟩ | ⟨_, _, _, e⟩ | ⟨_, _, e⟩ | ⟨ho, hb, _⟩ | ⟨_, _, e⟩
  on_goal 9 => exact .inr ⟨hb, ho⟩
  all_goals simp [e, writeStatus_eq]

/-- Settles O38: a command keeps QT and QTDEF, and a write that changes QT is one of its window while idle. -/
theorem tablesAreWrittenByTheHostOnly : Obligations.TablesAreWrittenByTheHostOnly := by
  constructor
  · intro s t h hne
    rcases step_data_cases h with ⟨i, -, -, hx⟩ | ⟨hr, -⟩ | ⟨off, w, hw, rfl⟩ | ⟨hqt, -⟩
    · obtain ⟨-, -, -, -, hqt, -⟩ := exec_keeps hx
      exact absurd hqt hne
    · exact .inl hr
    · rcases writeWord_qt_cases off w (turnTaken s) with hqt | ⟨hb, hlo, hhi⟩
      · exact absurd hqt hne
      · exact .inr ⟨hb, off, w, hlo, hhi, hw⟩
    · exact absurd hqt hne
  · intro s t h hn
    rw [step_of_engineNext hn] at h
    obtain ⟨-, -, hdef, -, hqt, -⟩ := engineStep_keeps h
    exact ⟨hqt, hdef⟩

end Sys2Proof.Machine
end

section
/-! The dequantizer's products, where they overflow, and DEQ on a defined slot (R100, R101). -/

namespace Sys2Proof.Machine

/-- A value that does not overflow is its own saturation (R10). -/
theorem sat16_eq_self {v : Int} (h : -32768 ≤ v ∧ v ≤ 32767) : sat16 v = v := by
  unfold sat16
  omega

theorem ovf16_eq_false_iff {v : Int} : ovf16 v = false ↔ -32768 ≤ v ∧ v ≤ 32767 := by
  rw [Bool.eq_false_iff, Ne, ovf16_iff]
  omega

/-- The value of an entry, stored again, is the entry (R101). -/
theorem toEntry_toInt (e : Entry) : toEntry e.toInt = e := BitVec.ofInt_toInt

/-- A signed and an unsigned 16-bit factor have a product of 32 bits (R100). -/
theorem product_fits {x q : Int} (hx : -32768 ≤ x ∧ x ≤ 32767) (hq : 0 ≤ q ∧ q ≤ 65535) :
    -2 ^ 31 ≤ x * q ∧ x * q < 2 ^ 31 := by
  obtain ⟨hx1, hx2⟩ := hx
  obtain ⟨hq1, hq2⟩ := hq
  constructor <;> nlinarith

/-- The overflow bit of a dequantized block is 1 exactly when one of its products overflows (R100). -/
theorem dqSat_iff {s : State} {b : Fin 8} {t : Fin 4} :
    dqSat s b t = true ↔ ∃ i < 64, ovf16 (dqProduct s b t i) = true := satAny_iff _

theorem dqSat_eq_false {s : State} {b : Fin 8} {t : Fin 4} (h : ∀ i < 64, ovf16 (dqProduct s b t i) = false) :
    dqSat s b t = false := by
  rw [Bool.eq_false_iff, Ne, dqSat_iff]
  rintro ⟨i, hi, ho⟩
  simp [h i hi] at ho

/-- The product of two written entries, by the entries (R100). -/
theorem dqProduct_of_entries {s : State} {b : Fin 8} {t : Fin 4} {i : Nat} {x q : Entry} (hx : blkEntry s b i = some x)
    (hq : qtEntry s t i = some q) : dqProduct s b t i = x.toInt * q.toNat := by
  simp [dqProduct_of_written, blkVal, qtVal, hx, hq]

/-- A written 0 makes the product 0, whatever the other read finds (R100, D30). -/
theorem dqProduct_of_zero {s : State} {b : Fin 8} {t : Fin 4} {i : Nat}
    (h : qtEntry s t i = some 0 ∨ blkEntry s b i = some 0) : dqProduct s b t i = 0 := by
  rcases h with h | h <;> simp [dqProduct, readCoef, readQuant, h]

/-- By a written 1 the product is the coefficient as read (R100, R101). -/
theorem dqProduct_of_one {s : State} {b : Fin 8} {t : Fin 4} {i : Nat} (h : qtEntry s t i = some 1) :
    dqProduct s b t i = readCoef s b i (readNumber 0 i) := by
  simp [dqProduct, readQuant, h]

/-- By a written 0 or 1 no coefficient overflows (R101). -/
theorem ovf16_dqProduct_of_zero_or_one {s : State} {b : Fin 8} {t : Fin 4} {i : Nat}
    (h : qtEntry s t i = some 0 ∨ qtEntry s t i = some 1) : ovf16 (dqProduct s b t i) = false := by
  rw [ovf16_eq_false_iff]
  rcases h with h | h
  · rw [dqProduct_of_zero (.inl h)]
    decide
  · rw [dqProduct_of_one h]
    exact entry_toInt_bounds _

/-- The state a DEQ on a defined slot leaves (R101). -/
def dequantized (rd rs : Fin 8) (qt : Fin 4) (s : State) : State :=
  nextDraw (complete (raiseSat (dqSat s rs qt) (storeBlk rd (fun i => toEntry (dqValue s rs qt i)) s)))

theorem exec_deq_defined {rd rs : Fin 8} {qt : Fin 4} {s : State} (h : slotDefined s qt = true) :
    exec (.deq rd rs qt) s = .next (dequantized rd rs qt s) := if_pos h

@[simp] theorem dequantized_sat (rd rs : Fin 8) (qt : Fin 4) (s : State) :
    (dequantized rd rs qt s).sat = (s.sat || dqSat s rs qt) := rfl

/-- The entries DEQ stores, and their values (R101). -/
theorem blkEntry_dequantized (rd rs : Fin 8) (qt : Fin 4) (s : State) {i : Nat} (hi : i < 64) :
    blkEntry (dequantized rd rs qt s) rd i = some (toEntry (sat16 (dqProduct s rs qt i))) :=
  blkEntry_storeBlk_same rd _ s hi

theorem coef_dequantized (rd rs : Fin 8) (qt : Fin 4) (s : State) {i : Nat} (hi : i < 64) :
    coef (dequantized rd rs qt s) rd i = some (sat16 (dqProduct s rs qt i)) := coef_of_stored hi

/-- The frame of DEQ: the entries outside RD, and all fields but BLK, SAT, DONE and the model's draws (R101). -/
theorem read_dequantized_outside {rd rs : Fin 8} {qt : Fin 4} {s : State} {k : Nat}
    (hk : k < 64 * rd.val ∨ 64 * rd.val + 64 ≤ k) :
    Memory.read (dequantized rd rs qt s).blk k = Memory.read s.blk k := read_storeBlk_outside hk

theorem dequantized_frame (rd rs : Fin 8) (qt : Fin 4) (s : State) :
    dequantized rd rs qt s = { s with
      blk := (dequantized rd rs qt s).blk
      sat := (dequantized rd rs qt s).sat
      done := true
      draws := s.draws + 1 } := rfl

/-- SAT after DEQ (R101). -/
theorem dequantized_sat_iff {rd rs : Fin 8} {qt : Fin 4} {s : State} :
    (dequantized rd rs qt s).sat = true ↔ s.sat = true ∨ ∃ i < 64, ovf16 (dqProduct s rs qt i) = true := by
  rw [dequantized_sat, Bool.or_eq_true, dqSat_iff]

/-- A table of written 0s and 1s leaves SAT (R101). -/
theorem dequantized_sat_of_zeros_and_ones (rd rs : Fin 8) {qt : Fin 4} {s : State}
    (h : ∀ i < 64, qtEntry s qt i = some 0 ∨ qtEntry s qt i = some 1) : (dequantized rd rs qt s).sat = s.sat := by
  rw [dequantized_sat, dqSat_eq_false fun i hi => ovf16_dqProduct_of_zero_or_one (h i hi), Bool.or_false]

/-- Settles O45: the coefficients and quantizers are what the command's reads find, and `dqProduct` is their product. -/
theorem deqDequantizesTheBlock : Obligations.DeqDequantizesTheBlock := by
  intro s rd rs qt hdef
  have hx := blkReads_readCoef s rs (fun i => i) (readNumber 0)
  have hq := qtReads_readQuant s qt (readNumber 1)
  refine ⟨_, _, dequantized rd rs qt s, hx, hq, exec_deq_defined hdef, fun i hi => coef_dequantized rd rs qt s hi,
    fun i hi => product_fits (hx i hi).1 (hq i hi).1, ?_, fun k hk => read_dequantized_outside hk,
    dequantized_frame rd rs qt s⟩
  simp only [dequantized_sat_iff, ovf16_iff]
  rfl

/-- Settles O46: two written operands fix their product, so does one written 0, and 0s and 1s never overflow. -/
theorem deqIsExactWhereUnwrittenEntriesCannotMatter : Obligations.DeqIsExactWhereUnwrittenEntriesCannotMatter := by
  intro s rd rs qt hdef
  refine ⟨dequantized rd rs qt s, exec_deq_defined hdef, fun i hi x q hx hq => ?_, fun i hi h0 => ?_,
    dequantized_sat_of_zeros_and_ones rd rs⟩
  · rw [← dqProduct_of_entries hx hq]
    exact ⟨coef_dequantized rd rs qt s hi, fun ho => dequantized_sat_iff.mpr (.inr ⟨i, hi, ho⟩)⟩
  · rw [blkEntry_dequantized rd rs qt s hi, dqProduct_of_zero h0]
    rfl

/-- Settles O47: by ones the products are the coefficients, and an entry fits its own width. -/
theorem deqByOnesCopiesTheBlock : Obligations.DeqByOnesCopiesTheBlock := by
  intro s rd rs qt hdef hone
  refine ⟨dequantized rd rs qt s, exec_deq_defined hdef,
    dequantized_sat_of_zeros_and_ones rd rs fun i hi => .inr (hone i hi), fun i hi e he => ?_⟩
  have hp : dqProduct s rs qt i = e.toInt := by simp [dqProduct_of_entries he (hone i hi)]
  rw [blkEntry_dequantized rd rs qt s hi, hp, sat16_eq_self (entry_toInt_bounds e), toEntry_toInt]

end Sys2Proof.Machine
end

section
/-! The pass and the two-pass transform: the flow graph, a DC coefficient alone, and the datapath's widths
(R121, R133, R138). -/

namespace Sys2Proof.Machine

/-- Settles O48: the stages of the pass, one after the other, are the rule's flow graph. -/
theorem passIsTheFlowGraph : Obligations.PassIsTheFlowGraph := by
  intro a
  exact ⟨rfl, rfl, rfl, rfl, rfl, rfl, rfl, rfl⟩

/-- mulK with CB = 14 written out (R7, R10). -/
theorem mulK_eq (a k : Int) : mulK a k = (a * k + 8192) / 16384 := rfl

@[simp] theorem mulK_zero_left (k : Int) : mulK 0 k = 0 := by
  simp [mulK_eq]

/-- With a DC input alone every output of the pass is the scaled DC value g0 (R133). -/
theorem idctPass_of_dc_only {a : Nat → Int} (h : ∀ k < 8, k ≠ 0 → a k = 0) {n : Nat} (hn : n < 8) :
    idctPass a n = mulK (a 0) s0 := by
  have hg : ∀ k, k ≠ 0 → stageG a k = 0 := by
    intro k hk
    unfold stageG
    split <;> simp_all
  have hg0 : stageG a 0 = mulK (a 0) s0 := rfl
  interval_cases n <;> simp [idctPass, stageOut, stageB, stageC, stageD, stageE, stageF, hg, hg0]

/-- In a DC-only block each column has at most its first input, so its column pass is constant (R122). -/
theorem columnPass_of_dc_only {x : Nat → Int} (h : ∀ k < 64, k ≠ 0 → x k = 0) {r k : Nat} (hr : r < 8) (hk : k < 8) :
    columnPass x (8 * r + k) = mulK (x k * 256) s0 := by
  have hcol : (8 * r + k) % 8 = k := by omega
  have hrow : (8 * r + k) / 8 = r := by omega
  unfold columnPass
  rw [hcol, hrow, idctPass_of_dc_only (fun j hj hj0 => ?_) hr, Nat.mul_zero, Nat.zero_add]
  · rfl
  · rw [h _ (by omega) (by omega), Int.zero_mul]

/-- The rounded samples of a DC-only block are all equal (R133). -/
theorem idctRounded_of_dc_only {x : Nat → Int} (h : ∀ k < 64, k ≠ 0 → x k = 0) {i : Nat} (hi : i < 64) :
    idctRounded x i = (mulK (mulK (x 0 * 256) s0) s0 + 128) / 256 := by
  have hr : i / 8 < 8 := by omega
  have hrow : rowPass (columnPass x) i = mulK (mulK (x 0 * 256) s0) s0 := by
    unfold rowPass
    rw [idctPass_of_dc_only (fun k hk hk0 => ?_) (Nat.mod_lt i (by decide)), columnPass_of_dc_only h hr (by decide)]
    rw [columnPass_of_dc_only h hr hk, h k (by omega) hk0, Int.zero_mul, mulK_zero_left]
  unfold idctRounded
  rw [hrow]
  rfl

/-- Settles O50: DC alone passes both passes as a scaling by S0, and a zero block is the case of a zero DC. -/
theorem idctOfADcOnlyBlockIsFlat : Obligations.IdctOfADcOnlyBlockIsFlat := by
  refine ⟨fun x i h hi => idctRounded_of_dc_only h hi, fun x i h hi => ?_⟩
  rw [idct2, idctRounded_of_dc_only (fun k hk _ => h k hk) hi, h 0 (by decide)]
  decide

/-! The interval evaluation of R138: every bound is a multiple of one unit `u`, where the inputs lie within 16384 units
(one in Q14), so that one evaluation of the flow graph serves both passes. -/

/-- Each value lies within its number of units. -/
def Within (u : Int) (bound v : Nat → Int) : Prop := ∀ k, |v k| ≤ bound k * u

/-- The units of stage g: the scale factors themselves. -/
def boundG : Nat → Int
  | 0 => s0
  | 1 => s4
  | 2 => s2
  | 3 => s6
  | 4 => s5
  | 5 => s1
  | 6 => s7
  | 7 => s3
  | _ => 0

/-- The units of stage f. -/
def boundF : Nat → Int
  | 0 => boundG 0
  | 1 => boundG 1
  | 2 => boundG 2
  | 3 => boundG 3
  | 4 => boundG 4 + boundG 7
  | 5 => boundG 5 + boundG 6
  | 6 => boundG 5 + boundG 6
  | 7 => boundG 4 + boundG 7
  | _ => 0

/-- The units of stage e. -/
def boundE : Nat → Int
  | 0 => boundF 0
  | 1 => boundF 1
  | 2 => boundF 2 + boundF 3
  | 3 => boundF 2 + boundF 3
  | 4 => boundF 4
  | 5 => boundF 5 + boundF 7
  | 6 => boundF 6
  | 7 => boundF 5 + boundF 7
  | 8 => boundF 4 + boundF 6
  | _ => 0

/-- The units of stage d: after a multiplication the next integer above the product's. -/
def boundD : Nat → Int
  | 0 => boundE 0
  | 1 => boundE 1
  | 2 => 15137
  | 3 => boundE 3
  | 4 => 12299
  | 5 => 29691
  | 6 => 25172
  | 7 => boundE 7
  | 8 => 16070
  | _ => 0

/-- The units of stage c. -/
def boundC : Nat → Int
  | 0 => boundD 0 + boundD 1
  | 1 => boundD 0 + boundD 1
  | 2 => boundD 2 + boundD 3
  | 3 => boundD 3
  | 4 => boundD 4 + boundD 8
  | 5 => boundD 5 + boundD 7
  | 6 => boundD 6 + boundD 8
  | 7 => boundD 7
  | 8 => (boundD 5 + boundD 7) + (boundD 6 + boundD 8)
  | _ => 0

/-- The units of stage b. -/
def boundB : Nat → Int
  | 0 => boundC 0 + boundC 3
  | 1 => boundC 1 + boundC 2
  | 2 => boundC 1 + boundC 2
  | 3 => boundC 0 + boundC 3
  | 4 => boundC 4 + boundC 8
  | 5 => boundC 8
  | 6 => boundC 6 + boundC 7
  | 7 => boundC 7
  | _ => 0

/-- The units of the outputs. -/
def boundOut : Nat → Int
  | 0 => boundB 0 + boundB 7
  | 1 => boundB 1 + boundB 6
  | 2 => boundB 2 + boundB 5
  | 3 => boundB 3 + boundB 4
  | 4 => boundB 3 + boundB 4
  | 5 => boundB 2 + boundB 5
  | 6 => boundB 1 + boundB 6
  | 7 => boundB 0 + boundB 7
  | _ => 0

/-- A sum and a difference lie within the sum of the units. -/
theorem abs_add_units {x y p q u : Int} (hx : |x| ≤ p * u) (hy : |y| ≤ q * u) : |x + y| ≤ (p + q) * u := by
  rw [Int.add_mul]
  exact (abs_add_le x y).trans (add_le_add hx hy)

theorem abs_sub_units {x y p q u : Int} (hx : |x| ≤ p * u) (hy : |y| ≤ q * u) : |x - y| ≤ (p + q) * u := by
  rw [Int.add_mul]
  exact (abs_sub x y).trans (add_le_add hx hy)

/-- A product with a constant lies within the product of the units, or any number above it. -/
theorem abs_mul_units {x k p q u : Int} (hu : 0 ≤ u) (hk : 0 ≤ k) (hx : |x| ≤ p * u) (hq : p * k ≤ q) :
    |x * k| ≤ q * u := by
  calc |x * k| = |x| * k := by rw [abs_mul, abs_of_nonneg hk]
    _ ≤ p * u * k := Int.mul_le_mul_of_nonneg_right hx hk
    _ = p * k * u := by ring
    _ ≤ q * u := Int.mul_le_mul_of_nonneg_right hq hu

/-- The rounding of mulK stays within a whole number of units (R10). -/
theorem abs_mulK_units {x k p q u : Int} (hu : 0 ≤ u) (hk : 0 ≤ k) (hx : |x| ≤ p * u) (hq : p * k ≤ 16384 * q) :
    |mulK x k| ≤ q * u := by
  have h := abs_mul_units hu hk hx hq
  rw [Int.mul_assoc] at h
  rw [abs_le] at h ⊢
  rw [mulK_eq]
  omega

theorem stageG_within {u : Int} {a : Nat → Int} (hu : 0 ≤ u) (h : ∀ k < 8, |a k| ≤ 16384 * u) :
    Within u boundG (stageG a)
  | 0 => abs_mulK_units hu (by decide) (h 0 (by decide)) (by decide)
  | 1 => abs_mulK_units hu (by decide) (h 4 (by decide)) (by decide)
  | 2 => abs_mulK_units hu (by decide) (h 2 (by decide)) (by decide)
  | 3 => abs_mulK_units hu (by decide) (h 6 (by decide)) (by decide)
  | 4 => abs_mulK_units hu (by decide) (h 5 (by decide)) (by decide)
  | 5 => abs_mulK_units hu (by decide) (h 1 (by decide)) (by decide)
  | 6 => abs_mulK_units hu (by decide) (h 7 (by decide)) (by decide)
  | 7 => abs_mulK_units hu (by decide) (h 3 (by decide)) (by decide)
  | _ + 8 => by simp [stageG, boundG]

theorem stageF_within {u : Int} {g : Nat → Int} (h : Within u boundG g) : Within u boundF (stageF g)
  | 0 => h 0
  | 1 => h 1
  | 2 => h 2
  | 3 => h 3
  | 4 => abs_sub_units (h 4) (h 7)
  | 5 => abs_add_units (h 5) (h 6)
  | 6 => abs_sub_units (h 5) (h 6)
  | 7 => abs_add_units (h 4) (h 7)
  | _ + 8 => by simp [stageF, boundF]

theorem stageE_within {u : Int} {f : Nat → Int} (h : Within u boundF f) : Within u boundE (stageE f)
  | 0 => h 0
  | 1 => h 1
  | 2 => abs_sub_units (h 2) (h 3)
  | 3 => abs_add_units (h 2) (h 3)
  | 4 => h 4
  | 5 => abs_sub_units (h 5) (h 7)
  | 6 => h 6
  | 7 => abs_add_units (h 5) (h 7)
  | 8 => abs_add_units (h 4) (h 6)
  | _ + 9 => by simp [stageE, boundE]

theorem stageD_within {u : Int} {e : Nat → Int} (hu : 0 ≤ u) (h : Within u boundE e) : Within u boundD (stageD e)
  | 0 => h 0
  | 1 => h 1
  | 2 => abs_mulK_units hu (by decide) (h 2) (by decide)
  | 3 => h 3
  | 4 => abs_mulK_units hu (by decide) (h 4) (by decide)
  | 5 => abs_mulK_units hu (by decide) (h 5) (by decide)
  | 6 => abs_mulK_units hu (by decide) (h 6) (by decide)
  | 7 => h 7
  | 8 => abs_mulK_units hu (by decide) (h 8) (by decide)
  | _ + 9 => by simp [stageD, boundD]

theorem stageC_within {u : Int} {d : Nat → Int} (h : Within u boundD d) : Within u boundC (stageC d)
  | 0 => abs_add_units (h 0) (h 1)
  | 1 => abs_sub_units (h 0) (h 1)
  | 2 => abs_sub_units (h 2) (h 3)
  | 3 => h 3
  | 4 => abs_add_units (h 4) (h 8)
  | 5 => abs_add_units (h 5) (h 7)
  | 6 => abs_sub_units (h 6) (h 8)
  | 7 => h 7
  | 8 => abs_sub_units (abs_add_units (h 5) (h 7)) (abs_sub_units (h 6) (h 8))
  | _ + 9 => by simp [stageC, boundC]

theorem stageB_within {u : Int} {c : Nat → Int} (h : Within u boundC c) : Within u boundB (stageB c)
  | 0 => abs_add_units (h 0) (h 3)
  | 1 => abs_add_units (h 1) (h 2)
  | 2 => abs_sub_units (h 1) (h 2)
  | 3 => abs_sub_units (h 0) (h 3)
  | 4 => abs_sub_units (h 4) (h 8)
  | 5 => h 8
  | 6 => abs_sub_units (h 6) (h 7)
  | 7 => h 7
  | _ + 8 => by simp [stageB, boundB]

theorem stageOut_within {u : Int} {b : Nat → Int} (h : Within u boundB b) : Within u boundOut (stageOut b)
  | 0 => abs_add_units (h 0) (h 7)
  | 1 => abs_add_units (h 1) (h 6)
  | 2 => abs_add_units (h 2) (h 5)
  | 3 => abs_add_units (h 3) (h 4)
  | 4 => abs_sub_units (h 3) (h 4)
  | 5 => abs_sub_units (h 2) (h 5)
  | 6 => abs_sub_units (h 1) (h 6)
  | 7 => abs_sub_units (h 0) (h 7)
  | _ + 8 => by simp [stageOut, boundOut]

/-- Every output of the pass lies within 142586 units. -/
theorem abs_idctPass_le {u : Int} {a : Nat → Int} (hu : 0 ≤ u) (h : ∀ k < 8, |a k| ≤ 16384 * u) {n : Nat} (hn : n < 8) :
    |idctPass a n| ≤ 142586 * u := by
  have hout := stageOut_within (stageB_within (stageC_within (stageD_within hu (stageE_within (stageF_within
    (stageG_within hu h))))))
  have hmax : ∀ k < 8, boundOut k ≤ 142586 := by decide
  exact (hout n).trans (Int.mul_le_mul_of_nonneg_right (hmax n hn) hu)

/-- A value whose magnitude is below the field's range fits the field (R138). -/
theorem fitsSigned_of_abs_le {n : Nat} {v m : Int} (h : |v| ≤ m) (hm : m < 2 ^ (n - 1)) : fitsSigned n v :=
  ⟨(abs_lt.mp (h.trans_lt hm)).1.le, (abs_lt.mp (h.trans_lt hm)).2⟩

/-- Nine values of a stage fit where the largest bound of any stage, 120297 units of b4, does. -/
theorem Within.fits {u : Int} {bound v : Nat → Int} {n : Nat} (h : Within u bound v) (hu : 0 ≤ u)
    (hmax : ∀ k ≤ 8, bound k ≤ 120297) (hn : 120297 * u < 2 ^ (n - 1)) {k : Nat} (hk : k ≤ 8) :
    fitsSigned n (v k) :=
  fitsSigned_of_abs_le ((h k).trans (Int.mul_le_mul_of_nonneg_right (hmax k hk) hu)) hn

/-- The widths of a pass whose inputs lie within 16384 units: the largest bounds are those of b4, of the outputs 3 and 4
and of the product e5 * M3 (R138). -/
theorem passFits_of_abs_le {u : Int} {a : Nat → Int} {stage out product : Nat} (hu : 0 ≤ u)
    (ha : ∀ k < 8, |a k| ≤ 16384 * u) (hs : 120297 * u < 2 ^ (stage - 1)) (ho : 142586 * u < 2 ^ (out - 1))
    (hp : 486454150 * u < 2 ^ (product - 1)) : PassFits stage out product a := by
  have hg := stageG_within hu ha
  have hf := stageF_within hg
  have he := stageE_within hf
  have hd := stageD_within hu he
  have hc := stageC_within hd
  have hb := stageB_within hc
  have prod : ∀ {x k p : Int}, |x| ≤ p * u → 0 ≤ k → p * k ≤ 486454150 → fitsSigned product (x * k) :=
    fun hx hk hq => fitsSigned_of_abs_le (abs_mul_units hu hk hx hq) hp
  refine ⟨fun k hk => ⟨hg.fits hu (by decide) hs hk, hf.fits hu (by decide) hs hk,
      he.fits hu (by decide) hs hk, hd.fits hu (by decide) hs hk, hc.fits hu (by decide) hs hk,
      hb.fits hu (by decide) hs hk⟩,
    fun k hk => fitsSigned_of_abs_le (abs_idctPass_le hu ha (by omega)) ho,
    prod (ha 0 ?_) ?_ ?_, prod (ha 1 ?_) ?_ ?_, prod (ha 2 ?_) ?_ ?_, prod (ha 3 ?_) ?_ ?_, prod (ha 4 ?_) ?_ ?_,
    prod (ha 5 ?_) ?_ ?_, prod (ha 6 ?_) ?_ ?_, prod (ha 7 ?_) ?_ ?_, prod (he 2) ?_ ?_, prod (he 4) ?_ ?_,
    prod (he 5) ?_ ?_, prod (he 6) ?_ ?_, prod (he 8) ?_ ?_⟩
  all_goals decide

/-- The scaled inputs of the column pass lie within 2^23 = 16384 * 512 (R122). -/
theorem abs_scaled_le {v : Int} (h : fitsSigned 16 v) : |v * 2 ^ 8| ≤ 16384 * 512 := by
  obtain ⟨h1, h2⟩ := h
  rw [abs_le]
  omega

/-- The inputs of the row pass lie within 16384 * 4456. -/
theorem abs_columnPass_le {x : Nat → Int} (hx : ∀ i < 64, fitsSigned 16 (x i)) {n : Nat} (hn : n < 64) :
    |columnPass x n| ≤ 16384 * 4456 := by
  have h : |columnPass x n| ≤ 142586 * 512 :=
    abs_idctPass_le (by decide) (fun k hk => abs_scaled_le (hx _ (by omega))) (by omega)
  omega

theorem fitsSigned_idctRounded {x : Nat → Int} (hx : ∀ i < 64, fitsSigned 16 (x i)) {i : Nat} (hi : i < 64) :
    fitsSigned 23 (idctRounded x i) := by
  have h : |rowPass (columnPass x) i| ≤ 142586 * 4456 :=
    abs_idctPass_le (by decide) (fun k hk => abs_columnPass_le hx (by omega)) (by omega)
  have hr : idctRounded x i = (rowPass (columnPass x) i + 128) / 256 := rfl
  rw [abs_le] at h
  rw [hr, fitsSigned]
  omega

/-- Settles O52: the interval evaluation with the unit 512 for the column pass and 4456 for the row pass. -/
theorem idctFitsTheDatapath : Obligations.IdctFitsTheDatapath := by
  intro x hx
  have hin : ∀ i < 8, ∀ k < 8, |x (8 * k + i) * 2 ^ 8| ≤ 16384 * 512 :=
    fun i hi k hk => abs_scaled_le (hx _ (by omega))
  refine ⟨fun i hi => ⟨fun k hk => ?_, ?_⟩, fun r hr => ?_, fun i hi => fitsSigned_idctRounded hx hi⟩
  · obtain ⟨h1, h2⟩ := hx (8 * k + i) (by omega)
    rw [fitsSigned]
    omega
  · exact passFits_of_abs_le (by decide) (hin i hi) (by decide) (by decide) (by decide)
  · exact passFits_of_abs_le (u := 4456) (by decide) (fun k hk => abs_columnPass_le hx (by omega)) (by decide)
      (by decide) (by decide)

end Sys2Proof.Machine
end

section
/-! IDCT and DQI: what they store, SAT and the frame (R133 to R136). -/

namespace Sys2Proof.Machine

/-- The state a completed IDCT or DQI leaves: `x` is the block transformed, `f` whether a product it was made of overflowed
(R133, R135). -/
def transformed (rd : Fin 8) (x : Nat → Int) (f : Bool) (s : State) : State :=
  nextDraw (complete (raiseSat (f || idct2Sat x) (storeBlk rd (fun i => toEntry (idct2 x i)) s)))

theorem exec_idct (rd rs : Fin 8) (s : State) :
    exec (.idct rd rs) s = .next (transformed rd (idctSource s rs) false s) := by
  rw [transformed, Bool.false_or]
  rfl

theorem exec_dqi_defined {rd rs : Fin 8} {qt : Fin 4} {s : State} (h : slotDefined s qt = true) :
    exec (.dqi rd rs qt) s = .next (transformed rd (dqValue s rs qt) (dqSat s rs qt) s) := if_pos h

theorem transformed_sat (rd : Fin 8) (x : Nat → Int) (f : Bool) (s : State) :
    (transformed rd x f s).sat = (s.sat || (f || idct2Sat x)) := rfl

theorem idct2Sat_iff {x : Nat → Int} : idct2Sat x = true ↔ ∃ i < 64, ovf16 (idctRounded x i) = true := satAny_iff _

theorem idct2Sat_congr {x y : Nat → Int} (h : ∀ i < 64, x i = y i) : idct2Sat x = idct2Sat y :=
  satAny_congr fun i _ => idctRounded_congr h i

/-- SAT after IDCT or DQI (R134, R135). -/
theorem transformed_sat_iff {rd : Fin 8} {x : Nat → Int} {f : Bool} {s : State} :
    (transformed rd x f s).sat = true ↔ s.sat = true ∨ f = true ∨ ∃ i < 64, ovf16 (idctRounded x i) = true := by
  rw [transformed_sat, Bool.or_eq_true, Bool.or_eq_true, idct2Sat_iff]

/-- The entries IDCT and DQI store, and their values (R133, R135). -/
theorem blkEntry_transformed (rd : Fin 8) (x : Nat → Int) (f : Bool) (s : State) {i : Nat} (hi : i < 64) :
    blkEntry (transformed rd x f s) rd i = some (toEntry (idct2 x i)) := blkEntry_storeBlk_same rd _ s hi

theorem coef_transformed (rd : Fin 8) (x : Nat → Int) (f : Bool) (s : State) {i : Nat} (hi : i < 64) :
    coef (transformed rd x f s) rd i = some (sat16 (idctRounded x i)) := coef_of_stored hi

/-- The stored entries depend on the block transformed alone (R136). -/
theorem blkEntry_transformed_congr {x y : Nat → Int} (h : ∀ i < 64, x i = y i) (rd rd' : Fin 8) (f f' : Bool)
    (s s' : State) {i : Nat} (hi : i < 64) :
    blkEntry (transformed rd x f s) rd i = blkEntry (transformed rd' y f' s') rd' i := by
  rw [blkEntry_transformed rd x f s hi, blkEntry_transformed rd' y f' s' hi, idct2, idct2, idctRounded_congr h]

/-- The frame of IDCT and DQI: the entries outside RD, and all fields but BLK, SAT, DONE and the model's draws. -/
theorem read_transformed_outside {rd : Fin 8} {x : Nat → Int} {f : Bool} {s : State} {k : Nat}
    (hk : k < 64 * rd.val ∨ 64 * rd.val + 64 ≤ k) :
    Memory.read (transformed rd x f s).blk k = Memory.read s.blk k := read_storeBlk_outside hk

theorem transformed_frame (rd : Fin 8) (x : Nat → Int) (f : Bool) (s : State) :
    transformed rd x f s = { s with
      blk := (transformed rd x f s).blk
      sat := (transformed rd x f s).sat
      done := true
      draws := s.draws + 1 } := rfl

/-- Settles O49: the coefficients are what the command's reads find, and `idctRounded` is the two passes written out. -/
theorem idctTransformsTheBlock : Obligations.IdctTransformsTheBlock := by
  intro s rd rs
  refine ⟨idctSource s rs, transformed rd (idctSource s rs) false s, blkReads_readCoef s rs (fun i => i) (readNumber 0),
    exec_idct rd rs s, fun i hi => ?_, ?_, fun k hk => read_transformed_outside hk, transformed_frame rd _ _ s⟩
  · rw [← idctRounded_eq]
    exact coef_transformed rd _ _ s hi
  · simp only [transformed_sat_iff, ovf16_iff, idctRounded_eq, Bool.false_eq_true, false_or]

/-- An IDCT reads a written entry as its value (R133). -/
theorem idctSource_of_coef {s : State} {b : Fin 8} {i : Nat} {v : Int} (h : coef s b i = some v) :
    idctSource s b i = v := by
  obtain ⟨e, he, hv⟩ := Option.map_eq_some_iff.mp h
  simp [idctSource, readCoef, he, hv]

/-- Of written source blocks with equal entries an IDCT reads equal coefficients (R136). -/
theorem idctSource_congr {s s' : State} {b b' : Fin 8} (hw : BlkWritten s b)
    (h : ∀ i < 64, blkEntry s b i = blkEntry s' b' i) : ∀ i < 64, idctSource s b i = idctSource s' b' i := by
  intro i hi
  have hc : coef s' b' i = some (blkVal s b i) := by
    rw [← coef_of_written (hw i hi), coef, coef, h i hi]
  rw [idctSource_of_coef hc, idctSource_of_coef (coef_of_written (hw i hi))]

/-- Settles O51: equal written source blocks give equal coefficients, of which samples and SAT are functions. -/
theorem idctReadsItsSourceOnly : Obligations.IdctReadsItsSourceOnly := by
  intro s s' t t' rd rd' rs rs' hw heq ht ht'
  have hx := idctSource_congr hw heq
  rw [exec_idct, Host.Outcome.next.injEq] at ht ht'
  subst ht ht'
  exact ⟨fun i hi => blkEntry_transformed_congr hx rd rd' _ _ s s' hi,
    fun hs => by rw [transformed_sat, transformed_sat, hs, idct2Sat_congr hx]⟩

/-- Settles O53: the coefficients and quantizers are what the command's reads find; DQ and IDCT2 follow in turn. -/
theorem dqiDequantizesAndTransforms : Obligations.DqiDequantizesAndTransforms := by
  intro s rd rs qt hdef
  refine ⟨_, _, transformed rd (dqValue s rs qt) (dqSat s rs qt) s, blkReads_readCoef s rs (fun i => i) (readNumber 0),
    qtReads_readQuant s qt (readNumber 1), exec_dqi_defined hdef, fun i hi => coef_transformed rd _ _ s hi, ?_,
    fun k hk => read_transformed_outside hk, transformed_frame rd _ _ s⟩
  rw [transformed_sat_iff, dqSat_iff]
  rfl

/-- What an IDCT reads of the block a DEQ has stored (R101, R135). -/
theorem idctSource_dequantized (rx rs : Fin 8) (qt : Fin 4) (s : State) {i : Nat} (hi : i < 64) :
    idctSource (dequantized rx rs qt s) rx i = dqValue s rs qt i :=
  idctSource_of_coef (coef_dequantized rx rs qt s hi)

/-- Settles O54: the IDCT reads back the saturated products DQI transforms at once. -/
theorem dqiIsDeqThenIdct : Obligations.DqiIsDeqThenIdct := by
  intro s rd rs rx qt hdef _ _
  have hx : ∀ i < 64, idctSource (dequantized rx rs qt s) rx i = dqValue s rs qt i :=
    fun i hi => idctSource_dequantized rx rs qt s hi
  refine ⟨_, _, _, exec_deq_defined hdef, exec_idct rd rx _, exec_dqi_defined hdef,
    fun i hi => blkEntry_transformed_congr hx rd rd _ _ _ _ hi, ?_, fun k hd hk => ?_⟩
  · rw [transformed_sat, transformed_sat, dequantized_sat, idct2Sat_congr hx, Bool.false_or, Bool.or_assoc]
  · rw [read_transformed_outside hd, read_transformed_outside hd, read_dequantized_outside hk]

end Sys2Proof.Machine
end

section
/-! CCONV and GRAY: the chroma index, the pixels, what they store and leave, and two CCONVs in either order
(R150 to R156). -/

namespace Sys2Proof.Machine

/-- On either axis a luma coordinate and a legal offset sample a chroma coordinate of the block (R154). -/
theorem sampled_lt {o f : Fin 2} {z : Nat} (hz : z < 8) (ho : o.val < 1 + f.val) :
    z / samplingFactor f + 4 * o.val < 8 := by
  rcases (by omega : f.val = 0 ∨ f.val = 1) with hf | hf <;> rw [samplingFactor, hf] <;> omega

/-- Settles O56: column and row are the remainder and the quotient by 8 because the column stays below 8. -/
theorem chromaIndexFollowsTheSampling : Obligations.ChromaIndexFollowsTheSampling := by
  intro h v hs vs x y hx hy hl
  obtain ⟨hh, hv⟩ := offsetsLegal_iff.mp hl
  have hcol := sampled_lt hx hh
  refine ⟨chromaIndex_lt hx hy hl, ?_, ?_, ?_⟩
  · rintro rfl rfl
    have h0 : h.val = 0 := Nat.lt_one_iff.mp hh
    have v0 : v.val = 0 := Nat.lt_one_iff.mp hv
    simp [chromaIndex, samplingFactor, h0, v0]
  · rintro rfl
    rw [chromaIndex, Nat.mul_add_mod, Nat.mod_eq_of_lt hcol]
    rfl
  · rintro rfl
    rw [chromaIndex, Nat.mul_add_div (by decide), Nat.div_eq_of_lt hcol, Nat.add_zero]
    rfl

/-- Each channel of the matrix as the number stored, with R150's constants (R152). -/
theorem yccPixel_r (y cb cr : Int) :
    ((yccPixel y cb cr).r.toNat : Int) = clamp8 (y + 128 + (22970 * cr + 8192) / 16384) := toChannel_clamp8 _

theorem yccPixel_g (y cb cr : Int) :
    ((yccPixel y cb cr).g.toNat : Int) = clamp8 (y + 128 + (-(5636 * cb) - 11698 * cr + 8192) / 16384) :=
  toChannel_clamp8 _

theorem yccPixel_b (y cb cr : Int) :
    ((yccPixel y cb cr).b.toNat : Int) = clamp8 (y + 128 + (29032 * cb + 8192) / 16384) := toChannel_clamp8 _

/-- The rounding term alone adds nothing: (0 + 8192) >> 14 = 0 (R155). -/
theorem yccPixel_zero_chroma (y : Int) : yccPixel y 0 0 = grayPixel y := by
  simp [yccPixel, grayPixel, yccR, yccG, yccB, grayLevel, asr]

/-- The pixels CCONV computes from what its reads find (R153). -/
def cconvPixel (s : State) (ry rcb rcr : Fin 8) (h v hs vs : Fin 2) (i : Nat) : Pixel :=
  yccPixel (readCoef s ry i (readNumber 0 i)) (readCoef s rcb (pixelChroma h v hs vs i) (readNumber 1 i))
    (readCoef s rcr (pixelChroma h v hs vs i) (readNumber 2 i))

/-- The pixels GRAY computes from what its reads find (R155). -/
def lumaPixel (s : State) (ry : Fin 8) (i : Nat) : Pixel := grayPixel (readCoef s ry i (readNumber 0 i))

/-- The state a completed CCONV or GRAY leaves: `p` is the sub-block converted (R153, R155). -/
def converted (ro : Fin 4) (p : Nat → Pixel) (s : State) : State := nextDraw (complete (storeOut ro p s))

theorem exec_cconv_legal {h v hs vs : Fin 2} (hl : offsetsLegal h v hs vs = true) (ry rcb rcr : Fin 8) (ro : Fin 4)
    (s : State) :
    exec (.cconv ry rcb rcr ro h v hs vs) s = .next (converted ro (cconvPixel s ry rcb rcr h v hs vs) s) := if_pos hl

theorem exec_gray (ry : Fin 8) (ro : Fin 4) (s : State) :
    exec (.gray ry ro) s = .next (converted ro (lumaPixel s ry) s) := rfl

theorem outPixel_converted (ro : Fin 4) (p : Nat → Pixel) (s : State) {i : Nat} (hi : i < 64) :
    outPixel (converted ro p s) ro i = some (p i) := outPixel_storeOut_same ro p s hi

/-- OUT after a colour conversion, by key. -/
theorem read_converted (ro : Fin 4) (p : Nat → Pixel) (s : State) (k : Nat) :
    Memory.read (converted ro p s).out k =
      if 64 * ro.val ≤ k ∧ k < 64 * ro.val + 64 then some (p (k - 64 * ro.val)) else Memory.read s.out k :=
  read_storeOut ro p s k

/-- The frame of CCONV and GRAY: the pixels outside RO, and all fields but OUT, DONE and the model's draws. -/
theorem read_converted_outside {ro : Fin 4} {p : Nat → Pixel} {s : State} {k : Nat}
    (hk : k < 64 * ro.val ∨ 64 * ro.val + 64 ≤ k) :
    Memory.read (converted ro p s).out k = Memory.read s.out k := read_storeOut_outside hk

theorem converted_frame (ro : Fin 4) (p : Nat → Pixel) (s : State) :
    converted ro p s = { s with
      out := (converted ro p s).out
      done := true
      draws := s.draws + 1 } := rfl

/-- Only the sixty-four pixels of the sub-block matter. -/
theorem converted_congr {p q : Nat → Pixel} (h : ∀ i < 64, p i = q i) (ro : Fin 4) (s : State) :
    converted ro p s = converted ro q s := by
  rw [converted, converted, storeOut, storeOut, entries_congr h]

/-- Settles O57: the luma samples are what the command's reads find, and its channels are one value. -/
theorem grayRepeatsTheLuma : Obligations.GrayRepeatsTheLuma := by
  intro s ry ro
  exact ⟨_, converted ro (lumaPixel s ry) s, blkReads_readCoef s ry (fun i => i) (readNumber 0), exec_gray ry ro s,
    fun i hi => ⟨lumaPixel s ry i, outPixel_converted ro _ s hi, toChannel_clamp8 _, rfl, rfl⟩,
    fun k hk => read_converted_outside hk, converted_frame ro _ s⟩

/-- Settles O55: the samples are what the command's reads find, chroma at the index R154 gives the pixel. -/
theorem cconvConvertsTheSubBlock : Obligations.CconvConvertsTheSubBlock := by
  intro s ry rcb rcr ro h v hs vs hh hv
  have hl := offsetsLegal_iff.mpr ⟨hh, hv⟩
  exact ⟨_, _, _, converted ro (cconvPixel s ry rcb rcr h v hs vs) s,
    blkReads_readCoef s ry (fun i => i) (readNumber 0),
    blkReads_readCoef s rcb (pixelChroma h v hs vs) (readNumber 1),
    blkReads_readCoef s rcr (pixelChroma h v hs vs) (readNumber 2), exec_cconv_legal hl ry rcb rcr ro s,
    fun i hi => ⟨cconvPixel s ry rcb rcr h v hs vs i, outPixel_converted ro _ s hi, yccPixel_r _ _ _, yccPixel_g _ _ _,
      yccPixel_b _ _ _⟩,
    fun k hk => read_converted_outside hk, converted_frame ro _ s⟩

/-- For legal offsets each pixel's chroma index names an entry of the block (R154). -/
theorem pixelChroma_lt {h v hs vs : Fin 2} (hl : offsetsLegal h v hs vs = true) {i : Nat} (hi : i < 64) :
    pixelChroma h v hs vs i < 64 := chromaIndex_lt (by omega) (by omega) hl

/-- A command reads a written 0 as 0, whichever read it is (R29). -/
theorem readCoef_of_zero {s : State} {b : Fin 8} {i : Nat} (h : blkEntry s b i = some 0) (k : Nat) :
    readCoef s b i k = 0 := by
  simp [readCoef, h]

/-- On a block of zeros as Cb and Cr, CCONV's pixels are GRAY's (R155). -/
theorem cconvPixel_zero_chroma {s : State} {rz : Fin 8} (hz : ∀ i < 64, blkEntry s rz i = some 0) {h v hs vs : Fin 2}
    (hl : offsetsLegal h v hs vs = true) (ry : Fin 8) {i : Nat} (hi : i < 64) :
    cconvPixel s ry rz rz h v hs vs i = lumaPixel s ry i := by
  have h0 := readCoef_of_zero (hz _ (pixelChroma_lt hl hi))
  rw [cconvPixel, h0, h0, yccPixel_zero_chroma, lumaPixel]

/-- Settles O58: both commands store the same sixty-four pixels. -/
theorem grayIsCconvWithZeroChroma : Obligations.GrayIsCconvWithZeroChroma := by
  intro s ry rz ro hz
  have hl : offsetsLegal 0 0 0 0 = true := by decide
  refine ⟨converted ro (lumaPixel s ry) s, exec_gray ry ro s, ?_⟩
  rw [exec_cconv_legal hl, converted_congr fun i hi => cconvPixel_zero_chroma hz hl ry hi]

/-- A colour conversion does not change what a later command reads of a written entry (R156). -/
theorem readCoef_converted {s : State} {b : Fin 8} {i : Nat} (hw : (blkEntry s b i).isSome = true) (ro : Fin 4)
    (p : Nat → Pixel) (k : Nat) : readCoef (converted ro p s) b i k = readCoef s b i k := by
  have he : blkEntry (converted ro p s) b i = blkEntry s b i := blkEntry_of_converted ro p s b i
  rw [readCoef_of_written hw, readCoef_of_written (he ▸ hw), blkVal, blkVal, he]

/-- A CCONV whose entries are all written computes the same pixels before and after another conversion (R156). -/
theorem exec_cconv_converted {s : State} {ry rcb rcr : Fin 8} {h v hs vs : Fin 2} (hl : offsetsLegal h v hs vs = true)
    (hy : BlkWritten s ry) (hcb : ChromaWritten s rcb h v hs vs) (hcr : ChromaWritten s rcr h v hs vs) (ro ro' : Fin 4)
    (p : Nat → Pixel) :
    exec (.cconv ry rcb rcr ro h v hs vs) (converted ro' p s)
      = .next (converted ro (cconvPixel s ry rcb rcr h v hs vs) (converted ro' p s)) := by
  rw [exec_cconv_legal hl, converted_congr fun i hi => ?_]
  have hx : i % 8 < 8 := by omega
  have hrow : i / 8 < 8 := by omega
  rw [cconvPixel, cconvPixel, readCoef_converted (hy i hi), pixelChroma, readCoef_converted (hcb _ hx _ hrow),
    readCoef_converted (hcr _ hx _ hrow)]

/-- Conversions into different output buffers leave the same pixels in either order (R156). -/
theorem read_converted_comm {ro ro' : Fin 4} (hne : ro ≠ ro') (p q : Nat → Pixel) (s : State) (k : Nat) :
    Memory.read (converted ro' q (converted ro p s)).out k = Memory.read (converted ro p (converted ro' q s)).out k := by
  have hval : ro.val ≠ ro'.val := Fin.val_ne_of_ne hne
  by_cases hk : 64 * ro.val ≤ k ∧ k < 64 * ro.val + 64
  · have hk' : ¬(64 * ro'.val ≤ k ∧ k < 64 * ro'.val + 64) := by omega
    simp only [read_converted, if_pos hk, if_neg hk']
  · simp only [read_converted, if_neg hk]

/-- The order of two conversions shows in OUT at most (R156). -/
theorem converted_comm_frame (ro ro' : Fin 4) (p q : Nat → Pixel) (s : State) :
    converted ro' q (converted ro p s) =
      { converted ro p (converted ro' q s) with out := (converted ro' q (converted ro p s)).out } := rfl

/-- Settles O59: neither CCONV writes what the other reads, and their pixels have different keys. -/
theorem cconvOrderDoesNotMatter : Obligations.CconvOrderDoesNotMatter := by
  intro s ry ry' rcb rcr ro ro' h v h' v' hs vs hne hl hl' hy hy' hcb hcb' hcr hcr'
  exact ⟨_, _, _, _, exec_cconv_legal hl ry rcb rcr ro s, exec_cconv_converted hl' hy' hcb' hcr' ro' ro _,
    exec_cconv_legal hl' ry' rcb rcr ro' s, exec_cconv_converted hl hy hcb hcr ro ro' _,
    fun k => read_converted_comm hne _ _ s k, converted_comm_frame ro ro' _ _ s⟩

end Sys2Proof.Machine
end

section

/-! NOP and CLR (R180, R181): one flag, and one block of zeros. -/

namespace Sys2Proof.Machine

theorem exec_nop (s : State) : exec .nop s = .next (complete s) := rfl

/-- The state a completed CLR leaves (R181). -/
def cleared (rd : Fin 8) (s : State) : State := complete (storeBlk rd (fun _ => 0) s)

theorem exec_clr (rd : Fin 8) (s : State) : exec (.clr rd) s = .next (cleared rd s) := rfl

theorem coef_cleared (rd : Fin 8) (s : State) {i : Nat} (hi : i < 64) : coef (cleared rd s) rd i = some 0 :=
  coef_storeBlk_same rd (fun _ => 0) s hi

/-- The frame of CLR: the entries outside RD, and all fields but BLK and DONE. -/
theorem read_cleared_outside {rd : Fin 8} {s : State} {k : Nat} (hk : k < 64 * rd.val ∨ 64 * rd.val + 64 ≤ k) :
    Memory.read (cleared rd s).blk k = Memory.read s.blk k := read_storeBlk_outside hk

theorem cleared_frame (rd : Fin 8) (s : State) : cleared rd s = { s with
    blk := (cleared rd s).blk
    done := true } := rfl

/-- Settles O44: CLR completes with a block of zeros stored in RD. -/
theorem clrZeroesTheBlock : Obligations.ClrZeroesTheBlock := fun s rd =>
  ⟨cleared rd s, exec_clr rd s, fun _ hi => coef_cleared rd s hi, fun _ hk => read_cleared_outside hk,
    cleared_frame rd s⟩

/-- Settles O43: NOP completes and stores nothing. -/
theorem nopOnlySetsDone : Obligations.NopOnlySetsDone := exec_nop

end Sys2Proof.Machine
end

section
/-! The engine's turns, and a CMD write (R201, R202, R207, R219). -/

namespace Sys2Proof.Machine

/-- With ERR = 1 the engine step drops the pending command (R202, R207). -/
theorem engineStep_dropped {s : State} (he : s.err = true) : engineStep s = .next (takeCommand s) := if_pos he

/-- With BUSY = 0 the engine's turn keeps all state (R219; log 14). -/
theorem engineTurn_idle {s : State} (hb : s.busy = false) : engineTurn s = .next s := by
  rw [engineTurn, hb, if_neg Bool.false_ne_true]

/-- Settles O8: the engine step of a legal word is its command's `exec`. -/
theorem stepRunsTheDecodedCommand : Obligations.StepRunsTheDecodedCommand := by
  intro s i hn he hd
  rw [step_of_engineNext hn]
  exact engineStep_legal (s := turnTaken s) he hd

/-- Settles O9: ERR drops the command, and with BUSY = 0 the turn is the idle block's, listed or not. -/
theorem engineTurnsThatRunNoCommand : Obligations.EngineTurnsThatRunNoCommand := by
  constructor
  · intro s hn he
    rw [step_of_engineNext hn]
    exact engineStep_dropped (s := turnTaken s) he
  · rintro s hb (hi | hi)
    · have hs : turnTaken s = s := by rw [turnTaken, hi, List.tail_nil, ← hi]
      rw [step_of_noInputs hi, engineTurn_idle hb, hs]
    · rw [step_of_head hi]
      exact engineTurn_idle (s := turnTaken s) hb

/-- A CMD write, by BUSY and ERR (R201). -/
theorem writeCmd_busy {s : State} (hb : s.busy = true) (w : Word) : writeCmd w s = recordError .cmdWhileBusy s :=
  if_pos hb

theorem writeCmd_afterError {s : State} (hb : s.busy = false) (he : s.err = true) (w : Word) : writeCmd w s = s := by
  simp [writeCmd, hb, he]

theorem writeCmd_accepted {s : State} (hb : s.busy = false) (he : s.err = false) (w : Word) :
    writeCmd w s = acceptCommand w s := by
  simp [writeCmd, hb, he]

/-- A step with a CMD write next that is accepted (R201). -/
theorem step_of_acceptedCmd {s : State} {w : Word} (h : WritesNext s 0x010 w) (hb : s.busy = false)
    (he : s.err = false) : step s = .next (acceptCommand w (turnTaken s)) :=
  step_of_write h (writeCmd_accepted (s := turnTaken s) hb he w)

/-- Settles O10, by BUSY and ERR. -/
theorem cmdWriteIssuesTheWord : Obligations.CmdWriteIssuesTheWord := by
  intro s w h
  refine ⟨fun hb => step_of_write h ?_, fun hb he => step_of_write h ?_, step_of_acceptedCmd h⟩
  · rw [writeWord_cmd, writeCmd_busy (s := turnTaken s) hb]
    rfl
  · exact writeCmd_afterError (s := turnTaken s) hb he w

end Sys2Proof.Machine
end

section
/-! Who records an error and what it changes, and who clears one (R203 to R209, R212). -/

namespace Sys2Proof.Machine

/-- The engine's rows of R205's table: what the pending word must be for a code to be recorded. -/
def EngineCause (s : State) : ErrorCode → Prop
  | .illegalCmd => ∃ e, decode s.pend = .error e
  | .qtUndefined => ∃ rd rs qt, slotDefined s qt = false
      ∧ (decode s.pend = .ok (.deq rd rs qt) ∨ decode s.pend = .ok (.dqi rd rs qt))
  | .badSampling => ∃ ry rcb rcr ro h v hs vs,
      decode s.pend = .ok (.cconv ry rcb rcr ro h v hs vs) ∧ offsetsLegal h v hs vs = false
  | .cmdWhileBusy | .accessWhileBusy | .badAccess => False

/-- The host's rows of R205's table: what its next access must be for a code to be recorded. -/
def HostCause (s : State) : ErrorCode → Prop
  | .illegalCmd | .qtUndefined | .badSampling => False
  | .cmdWhileBusy => s.busy = true ∧ ∃ w, WritesNext s 0x010 w
  | .accessWhileBusy => s.busy = true ∧ ∃ off w, WritesNext s off w ∧ (off = 0x014 ∨ 0x400 ≤ off ∧ off < 0x1000)
  | .badAccess => ∃ off bytes, off < 0x2000 ∧ ¬(bytes = 4 ∧ off % 4 = 0)
      ∧ (s.inputs.head? = some (.read (Config.base + off) bytes)
        ∨ ∃ w, s.inputs.head? = some (.write (Config.base + off) bytes w))

/-- The last word read once the next access has recorded an error: 0 where that access is a read (R208; log 12). -/
def rdataAfterError (s : State) : Word :=
  match s.inputs.head? with
  | some (.read _ _) => 0
  | _ => s.rdata

theorem rdataAfterError_of_read {s : State} {addr bytes : Nat} (h : s.inputs.head? = some (.read addr bytes)) :
    rdataAfterError s = 0 := by
  simp only [rdataAfterError, h]

theorem rdataAfterError_of_write {s : State} {addr bytes : Nat} {w : Word}
    (h : s.inputs.head? = some (.write addr bytes w)) : rdataAfterError s = s.rdata := by
  simp only [rdataAfterError, h]

/-- An access has the next turn, so the engine has not. -/
theorem engineNext_of_access {s : State} {e : Event} (h : s.inputs.head? = some e) (ha : e.isAccess = true) :
    EngineNext s = false := by
  obtain ⟨rest, hi⟩ := List.head?_eq_some_iff.mp h
  cases e with
  | read addr bytes | write addr bytes w => simp [EngineNext, hi]
  | engine | hardReset => exact absurd ha Bool.false_ne_true

theorem head_of_writesNext {s : State} {off : Nat} {w : Word} (h : WritesNext s off w) :
    s.inputs.head? = some (sw off w) := h.2.2

/-- A command that sets ERR is one whose own check fails (R86). -/
theorem exec_recordsError {i : Instr} {s t : State} (h : exec i s = .next t) (he : s.err = false) (ht : t.err = true) :
    (∃ rd rs qt, (i = .deq rd rs qt ∨ i = .dqi rd rs qt) ∧ slotDefined s qt = false ∧ t = recordError .qtUndefined s)
    ∨ ∃ ry rcb rcr ro h v hs vs, i = .cconv ry rcb rcr ro h v hs vs ∧ offsetsLegal h v hs vs = false
        ∧ t = recordError .badSampling s := by
  rcases exec_cases h with hq | hc | ⟨_, rfl⟩ | ⟨_, _, rfl⟩ | ⟨_, _, _, _, rfl⟩ | ⟨_, _, _, rfl⟩
  · exact .inl hq
  · exact .inr hc
  all_goals simp [he] at ht

/-- An engine step that sets ERR has a cause of the table, and only records that cause's code (R205, R208). -/
theorem engineStep_recordsError {s t : State} (h : engineStep s = .next t) (he : s.err = false) (ht : t.err = true) :
    ∃ c, EngineCause s c ∧ t = recordError c (takeCommand s) := by
  rcases engineStep_cases h with ⟨he', -⟩ | ⟨-, hd, rfl⟩ | ⟨-, i, hd, hx⟩
  · simp [he] at he'
  · exact ⟨.illegalCmd, hd, rfl⟩
  · rcases exec_recordsError hx he ht with ⟨rd, rs, qt, hi, hq, rfl⟩ | ⟨_, _, _, _, _, _, _, _, rfl, hl, rfl⟩
    · refine ⟨.qtUndefined, ⟨rd, rs, qt, hq, ?_⟩, rfl⟩
      rcases hi with rfl | rfl
      · exact .inl hd
      · exact .inr hd
    · exact ⟨.badSampling, ⟨_, _, _, _, _, _, _, _, hd, hl⟩, rfl⟩

/-- A legal write that sets ERR is discarded because BUSY = 1, and only records error 4 or 5 (R60, R201). -/
theorem writeWord_recordsError {off : Nat} {w : Word} {s : State} (he : s.err = false)
    (ht : (writeWord off w s).err = true) :
    s.busy = true
    ∧ ((off = 0x010 ∧ writeWord off w s = recordError .cmdWhileBusy s)
      ∨ ((off = 0x014 ∨ 0x400 ≤ off ∧ off < 0x1000) ∧ writeWord off w s = recordError .accessWhileBusy s)) := by
  rcases writeWord_effects off w s with e | ⟨ho, hb, e⟩ | ⟨ho, hb, e⟩ | ⟨_, _, e⟩ | ⟨_, _, e⟩
    | ⟨_, e⟩ | ⟨_, _, _, e⟩ | ⟨_, _, e⟩ | ⟨_, _, e⟩ | ⟨_, _, e⟩
  on_goal 2 => exact ⟨hb, .inl ⟨ho, e⟩⟩
  on_goal 2 => exact ⟨hb, .inr ⟨ho, e⟩⟩
  all_goals simp [e, he, writeStatus_eq] at ht

/-- A step that sets ERR: whose it is, its cause, and the whole next state (R205, R208, R209). -/
theorem step_recordsError {s t : State} (h : step s = .next t) (he : s.err = false) (ht : t.err = true) :
    (EngineNext s = true ∧ ∃ c, EngineCause s c ∧ t = recordError c (takeCommand (turnTaken s)))
    ∨ (EngineNext s = false ∧ ∃ c, HostCause s c ∧ t = returnWord (rdataAfterError s) (recordError c (turnTaken s))) := by
  rcases step_cases h with ⟨hn, hx⟩ | ⟨-, -, rfl⟩ | ⟨-, rfl⟩ | ⟨_, -, rfl⟩ | ⟨off, w, hw, rfl⟩
    | ⟨off, bytes, ho, hbad, hi, rfl⟩ | ⟨off, bytes, w, ho, hbad, hi, rfl⟩
  · exact .inl ⟨hn, engineStep_recordsError (s := turnTaken s) hx he ht⟩
  · simp [he] at ht
  · simp at ht
  · simp [he] at ht
  · have hi := head_of_writesNext hw
    rw [rdataAfterError_of_write hi]
    refine .inr ⟨engineNext_of_access hi rfl, ?_⟩
    obtain ⟨hb, ⟨rfl, e⟩ | ⟨ho, e⟩⟩ := writeWord_recordsError (s := turnTaken s) he ht
    · exact ⟨.cmdWhileBusy, ⟨hb, w, hw⟩, e⟩
    · exact ⟨.accessWhileBusy, ⟨hb, off, w, hw, ho⟩, e⟩
  · rw [rdataAfterError_of_read hi]
    exact .inr ⟨engineNext_of_access hi rfl, .badAccess, ⟨off, bytes, ho, hbad, .inl hi⟩, rfl⟩
  · rw [rdataAfterError_of_write hi]
    exact .inr ⟨engineNext_of_access hi rfl, .badAccess, ⟨off, bytes, ho, hbad, .inr ⟨w, hi⟩⟩, rfl⟩

/-- An offset not below its factor is 1 under a factor of 1 (R82, R86). -/
theorem offsetsLegal_eq_false_iff : ∀ {h v hs vs : Fin 2},
    offsetsLegal h v hs vs = false ↔ (h = 1 ∧ hs = 0) ∨ (v = 1 ∧ vs = 0) := by
  decide

/-- Settles O16: the codes of the causes in `step_recordsError`, row by row of R205's table. -/
theorem errorsHaveTheirCause : Obligations.ErrorsHaveTheirCause := by
  intro s t h he ht
  rcases step_recordsError h he ht with ⟨hn, c, hc, rfl⟩ | ⟨-, c, hc, rfl⟩
  · rw [recordError_first (s := takeCommand (turnTaken s)) he]
    cases c with
    | illegalCmd => exact .inl ⟨rfl, hn, hc⟩
    | qtUndefined => exact .inr (.inl ⟨rfl, hn, hc⟩)
    | badSampling =>
      obtain ⟨ry, rcb, rcr, ro, h, v, hs, vs, hd, hl⟩ := hc
      exact .inr (.inr (.inl ⟨rfl, hn, ry, rcb, rcr, ro, h, v, hs, vs, hd, offsetsLegal_eq_false_iff.mp hl⟩))
    | cmdWhileBusy | accessWhileBusy | badAccess => exact hc.elim
  · rw [recordError_first (s := turnTaken s) he]
    cases c with
    | illegalCmd | qtUndefined | badSampling => exact hc.elim
    | cmdWhileBusy => exact .inr (.inr (.inr (.inl ⟨rfl, hc⟩)))
    | accessWhileBusy => exact .inr (.inr (.inr (.inr (.inl ⟨rfl, hc⟩))))
    | badAccess => exact .inr (.inr (.inr (.inr (.inr ⟨rfl, hc⟩))))

/-- Settles O18: the next states of `step_recordsError`, the engine's and the host's. -/
theorem errorsArePrecise : Obligations.ErrorsArePrecise := by
  constructor <;> intro s t h hn he ht <;>
    rcases step_recordsError h he ht with ⟨hn', c, -, rfl⟩ | ⟨hn', c, -, rfl⟩
  · rw [recordError_first (s := takeCommand (turnTaken s)) he]
    rfl
  · simp [hn] at hn'
  · simp [hn] at hn'
  · rw [recordError_first (s := turnTaken s) he]
    rfl

/-- A legal write with ERR = 1 keeps the error record, or clears ERR by a soft reset or by STATUS bit 2 (R203, R212, R242). -/
theorem writeWord_afterError {off : Nat} {w : Word} {s : State} (he : s.err = true) :
    ((writeWord off w s).err = true ∧ (writeWord off w s).errcode = s.errcode)
    ∨ ((writeWord off w s).err = false
        ∧ (off = 0x004 ∧ w.getLsbD 0 = true ∨ off = 0x008 ∧ w.getLsbD 2 = true)) := by
  rcases writeWord_effects off w s with e | ⟨_, _, e⟩ | ⟨_, _, e⟩ | ⟨ho, h0, e⟩ | ⟨_, _, e⟩
    | ⟨ho, e⟩ | ⟨_, _, _, e⟩ | ⟨_, _, e⟩ | ⟨_, _, e⟩ | ⟨_, _, e⟩
  on_goal 6 =>
    rw [e, writeStatus_eq]
    cases w.getLsbD 2 <;> simp [he, ho]
  on_goal 4 => exact .inr ⟨by simp [e], .inl ⟨ho, h0⟩⟩
  all_goals simp [e, he]

/-- A step from ERR = 1 keeps the error record, or is a reset or a STATUS write that clears ERR (R203, R212, R242). -/
theorem step_afterError {s t : State} (h : step s = .next t) (he : s.err = true) :
    (t.err = true ∧ t.errcode = s.errcode)
    ∨ (t.err = false ∧ (ResetNext s ∨ ∃ v : Word, v.getLsbD 2 = true ∧ WritesNext s 0x008 v)) := by
  rcases step_cases h with ⟨-, hx⟩ | ⟨-, -, rfl⟩ | ⟨hr, rfl⟩ | ⟨_, -, rfl⟩ | ⟨off, w, hw, rfl⟩ | ⟨_, _, -, -, -, rfl⟩
    | ⟨_, _, _, -, -, -, rfl⟩
  · rw [engineStep_dropped (s := turnTaken s) he] at hx
    cases hx
    exact .inl ⟨he, rfl⟩
  · exact .inl ⟨he, rfl⟩
  · exact .inr ⟨rfl, .inl (.inl hr)⟩
  · exact .inl ⟨he, rfl⟩
  · rcases writeWord_afterError (off := off) (w := w) (s := turnTaken s) he with hkeep | ⟨ht, ⟨rfl, h0⟩ | ⟨rfl, h2⟩⟩
    · exact .inl hkeep
    · exact .inr ⟨ht, .inl (.inr ⟨w, h0, hw⟩)⟩
    · exact .inr ⟨ht, .inr ⟨w, h2, hw⟩⟩
  · simp [he]
  · simp [he]

/-- Settles O17: the two outcomes of `step_afterError`, told apart by ERR. -/
theorem firstErrorCodeIsKept : Obligations.FirstErrorCodeIsKept := by
  constructor <;> intro s t h he ht <;> rcases step_afterError h he with ⟨ht', hkeep⟩ | ⟨ht', hclear⟩
  · exact hkeep
  · simp [ht] at ht'
  · simp [ht] at ht'
  · exact hclear

/-- A STATUS write with bit 2 is the return from an error (R212). -/
theorem writeStatus_clearsError {v : Word} (hv : v.getLsbD 2 = true) (s : State) :
    writeStatus v s = clearError { s with done := s.done && !v.getLsbD 1, sat := s.sat && !v.getLsbD 3 } := if_pos hv

/-- Settles O20: with ERR cleared and BUSY still 0, the CMD write of the next turn is accepted. -/
theorem returnFromErrorAcceptsCommandsAgain : Obligations.ReturnFromErrorAcceptsCommandsAgain := by
  intro s v w hv hb hstatus hcmd
  exact ⟨_, _, step_of_write hstatus (writeStatus_clearsError hv _),
    step_of_acceptedCmd hcmd hb rfl, rfl, rfl, hb, rfl, rfl, rfl, rfl, rfl, rfl, rfl, rfl⟩

end Sys2Proof.Machine
end

section
/-! Every script inside the aperture runs to its end (R202, R248, R249; log 2). -/

namespace Sys2Proof.Machine

/-- No write reaches the script. -/
@[simp] theorem writeWord_inputs (off : Nat) (w : Word) (s : State) : (writeWord off w s).inputs = s.inputs := by
  rcases writeWord_effects off w s with e | ⟨_, _, e⟩ | ⟨_, _, e⟩ | ⟨_, _, e⟩ | ⟨_, _, e⟩
    | ⟨_, e⟩ | ⟨_, _, _, e⟩ | ⟨_, _, e⟩ | ⟨_, _, e⟩ | ⟨_, _, e⟩ <;> simp [e, writeStatus_eq]

/-- A step takes one turn off the script. -/
theorem step_inputs {s t : State} (h : step s = .next t) : t.inputs = s.inputs.tail := by
  rcases step_cases h with ⟨-, hx⟩ | ⟨-, -, rfl⟩ | ⟨-, rfl⟩ | ⟨_, -, rfl⟩ | ⟨_, _, -, rfl⟩ | ⟨_, _, -, -, -, rfl⟩
    | ⟨_, _, _, -, -, -, rfl⟩
  · obtain ⟨-, -, -, -, -, hi, -⟩ := engineStep_keeps hx
    exact hi
  all_goals simp

/-- A script inside the aperture is used up, one step per turn. -/
theorem runSteps_script {script : List Event} {s : State} (hi : s.inputs = script) (hin : ∀ e ∈ script, e.inAperture) :
    ∃ t, runSteps script.length s = .next t ∧ t.inputs = [] := by
  induction script generalizing s with
  | nil => exact ⟨s, rfl, hi⟩
  | cons e rest ih =>
    obtain ⟨he, hrest⟩ := List.forall_mem_cons.mp hin
    obtain ⟨u, hu⟩ := turn_next_of_inAperture he (turnTaken s)
    have hs : step s = .next u := (step_of_head (by rw [hi]; rfl)).trans hu
    have hui : u.inputs = rest := by rw [step_inputs hs, hi, List.tail_cons]
    obtain ⟨t, ht⟩ := ih hui hrest
    exact ⟨t, by rwa [List.length_cons, runSteps_succ hs]⟩

/-- The engine's turn leaves the block idle (R202, R219). -/
theorem engineTurn_busy {s t : State} (h : engineTurn s = .next t) : t.busy = false := by
  cases hb : s.busy
  · rw [engineTurn_idle hb] at h
    cases h
    exact hb
  · rw [engineTurn, if_pos hb] at h
    exact (engineStep_keeps h).2.1

/-- Settles O13: the script is used up, and the engine's turn after it leaves the block idle. -/
theorem everyScriptEndsWithTheBlockIdle : Obligations.EveryScriptEndsWithTheBlockIdle := by
  intro s hin
  obtain ⟨u, hu, hui⟩ := runSteps_script rfl hin
  obtain ⟨t, ht⟩ := engineTurn_next u
  have hs : step u = .next t := (step_of_noInputs hui).trans ht
  have hti : t.inputs = [] := by rw [step_inputs hs, hui, List.tail_nil]
  have htb := engineTurn_busy ht
  refine ⟨t, ?_, hti, htb, ?_⟩
  · rw [runSteps_add hu, runSteps_succ hs]
    rfl
  · simp [State.programEnded, hti, htb]

end Sys2Proof.Machine
end

section
/-! Where a command's own check passes, it completes (R86, R202; log 5, log 7). -/

namespace Sys2Proof.Machine

/-- Settles O42, command by command: the state each leaves, and that state's frame. -/
theorem everyCommandCompletesWhereItsCheckPasses : Obligations.EveryCommandCompletesWhereItsCheckPasses := by
  intro i s hruns
  cases i with
  | nop => exact ⟨_, exec_nop s, rfl⟩
  | deq rd rs qt =>
    exact ⟨_, exec_deq_defined hruns, dequantized_frame rd rs qt s, fun h => dequantized_sat_iff.mpr (.inl h),
      fun _ hk => read_dequantized_outside hk⟩
  | idct rd rs =>
    exact ⟨_, exec_idct rd rs s, transformed_frame rd _ _ s, fun h => transformed_sat_iff.mpr (.inl h),
      fun _ hk => read_transformed_outside hk⟩
  | cconv ry rcb rcr ro h v hs vs =>
    exact ⟨_, exec_cconv_legal hruns ry rcb rcr ro s, converted_frame ro _ s, fun _ hk => read_converted_outside hk⟩
  | gray ry ro => exact ⟨_, exec_gray ry ro s, converted_frame ro _ s, fun _ hk => read_converted_outside hk⟩
  | clr rd => exact ⟨_, exec_clr rd s, cleared_frame rd s, fun _ hk => read_cleared_outside hk⟩
  | dqi rd rs qt =>
    exact ⟨_, exec_dqi_defined hruns, transformed_frame rd _ _ s, fun h => transformed_sat_iff.mpr (.inl h),
      fun _ hk => read_transformed_outside hk⟩

end Sys2Proof.Machine
end

section
/-! The next states of the two resets (R240 to R242). -/

namespace Sys2Proof.Machine

/-- A step with a hardware reset next (R241). -/
theorem step_of_hardReset {s : State} (h : s.inputs.head? = some .hardReset) :
    step s = .next (hardwareReset (turnTaken s)) := step_of_head h

/-- A step with a soft reset next: CTRL bit 0 decides alone, and BUSY has no part in it (R22, R242). -/
theorem step_of_softReset {s : State} {v : Word} (hv : v.getLsbD 0 = true) (h : WritesNext s 0x004 v) :
    step s = .next (softReset (turnTaken s)) := step_of_write h (writeCtrl_of_srst hv (turnTaken s))

/-- The two resets agree on every field but PEND and the RAMs (R242; log 8). -/
theorem softReset_eq_hardwareReset_but_rams (s : State) :
    { softReset s with pend := 0, qt := [], blk := [], out := [] } = { hardwareReset s with pend := 0 } := rfl

/-- Settles O22: the reset's turn gives `hardwareReset`, where DONE and ERR are 0. -/
theorem hardwareResetFromAnyState : Obligations.HardwareResetFromAnyState :=
  fun _ h => ⟨_, step_of_hardReset h, irq_eq_false rfl rfl, rfl⟩

/-- Settles O23: the reset's write gives `softReset`, whose flags and RAMs are read off; the rest is as after a hardware
reset. -/
theorem softResetKeepsTheRams : Obligations.SoftResetKeepsTheRams :=
  fun s _ hv h => ⟨_, step_of_softReset hv h, rfl, rfl, rfl, rfl, rfl, rfl, rfl, rfl, rfl, rfl,
    softReset_eq_hardwareReset_but_rams (turnTaken s)⟩

end Sys2Proof.Machine
end
